-- ==== Sys2Proof/Word.lean ====
section
/-!
DEFINITION. The word types of the CORE (00_scope.md rules R7, R8).
-/
namespace Sys2Proof

/-- A Word: an unsigned 32-bit integer (R8). -/
abbrev Word := BitVec 32

/-- Eight Words, position 0 first: the shape of the Digest State and of the Working State (R21, R24). -/
abbrev Words8 := Vector Word 8

/-- Sixteen Words, position 0 the oldest: the shape of the Schedule Window and of a block (R15, R25). -/
abbrev Words16 := Vector Word 16

/-- A Block Count, `BCW = 32` bits (R7; log 5). -/
abbrev BlockCount := BitVec 32

/-- A command word: `2 + BCW + 256` bits (R61). -/
abbrev CmdWord := BitVec 290

/-- A 256-bit digest as the OUT channel carries it (R44). -/
abbrev Digest := BitVec 256

end Sys2Proof
end

