-- ==== Sys2Proof/Machine/Functions.lean ====
section
/-!
DEFINITION. The Word functions of the data path: the primitives of 00_scope.md R10, the schedule's mixing functions
(40_schedule.md), the functions of a round (41_round.md) and the component-wise sum (42_accumulator.md).
-/
namespace Sys2Proof.Machine

/-- `rotr(x, n)`: the 32-bit right rotation (R10). -/
def rotr (x : Word) (n : Nat) : Word := x.rotateRight n

/-- `shr(x, n)`: the logical right shift (R10). -/
def shr (x : Word) (n : Nat) : Word := x >>> n

/-- R81. -/
def sigma0 (x : Word) : Word := rotr x 7 ^^^ rotr x 18 ^^^ shr x 3

/-- R82. -/
def sigma1 (x : Word) : Word := rotr x 17 ^^^ rotr x 19 ^^^ shr x 10

/-- R96. -/
def Sigma0 (x : Word) : Word := rotr x 2 ^^^ rotr x 13 ^^^ rotr x 22

/-- R97. -/
def Sigma1 (x : Word) : Word := rotr x 6 ^^^ rotr x 11 ^^^ rotr x 25

/-- R99. -/
def Ch (x y z : Word) : Word := (x &&& y) ^^^ (~~~x &&& z)

/-- R100. -/
def Maj (x y z : Word) : Word := (x &&& y) ^^^ (x &&& z) ^^^ (y &&& z)

/-- `T1` of R101, from the Working State, the round constant and the schedule Word. -/
def roundT1 (v : Words8) (k w : Word) : Word := k + Sigma1 v[4] + Ch v[4] v[5] v[6] + v[7] + w

/-- `T2` of R101. -/
def roundT2 (v : Words8) : Word := Sigma0 v[0] + Maj v[0] v[1] v[2]

/-- `round(V, k, w)`: the round as a pure function (R102). -/
def roundOf (v : Words8) (k w : Word) : Words8 :=
  #v[roundT1 v k w + roundT2 v, v[0], v[1], v[2], v[3] + roundT1 v k w, v[4], v[5], v[6]]

/-- The schedule Word of a round `t >= 16`, from the window before the shift (R86). -/
def expandWord (win : Words16) : Word := sigma1 win[14] + win[9] + sigma0 win[1] + win[0]

/-- The window after `ShiftIn(w)`: the oldest Word is lost, `w` is the newest (R84). -/
def shiftIn (win : Words16) (w : Word) : Words16 :=
  #v[win[1], win[2], win[3], win[4], win[5], win[6], win[7], win[8],
     win[9], win[10], win[11], win[12], win[13], win[14], win[15], w]

/-- `add8(X, Y)`: eight independent sums modulo 2^32 (R111). -/
def add8 (x y : Words8) : Words8 :=
  #v[x[0] + y[0], x[1] + y[1], x[2] + y[2], x[3] + y[3], x[4] + y[4], x[5] + y[5], x[6] + y[6], x[7] + y[7]]

end Sys2Proof.Machine
end

