-- ==== Sys2Proof/Syntax.lean ====
section
/-!
DEFINITION. The operations of the CORE, one constructor per row of spec/opcode_table.json (30_encoding.md R66).
-/
namespace Sys2Proof

/-- The operations. A command carries every field of its command word, the ignored ones too (R61). An operation of
format STEP carries the bits of the dispatch key that its row leaves free (R65, R75): `nz` (NREM is not 0), `lo`
(T is below 16), `iv` (`in_valid`), `ie` (`in_eos`), `ordy` (`out_ready`). -/
inductive Instr where
  | reset
  | nop (nblocks : BlockCount) (seed : BitVec 256)
  | start (nblocks : BlockCount) (seed : BitVec 256)
  | startSeeded (nblocks : BlockCount) (seed : BitVec 256)
  | cancel (nblocks : BlockCount) (seed : BitVec 256)
  | beginBlock (lo iv ie ordy : Bool)
  | finish (lo iv ie : Bool)
  | waitOut (lo iv ie : Bool)
  | schedLoad (nz ie ordy : Bool)
  | underrun (nz ordy : Bool)
  | waitIn (nz ordy : Bool)
  | schedExpand (nz iv ie ordy : Bool)
  | round (nz lo iv ie ordy : Bool)
  | fold (nz lo iv ie ordy : Bool)
  | holdIdle (nz lo iv ie ordy : Bool)
  | holdDone (nz lo iv ie ordy : Bool)
  | holdFailed (nz lo iv ie ordy : Bool)
deriving DecidableEq, Repr

/-- The row's mnemonic in spec/opcode_table.json. -/
def Instr.mnemonic : Instr → String
  | .reset => "RESET"
  | .nop _ _ => "NOP"
  | .start _ _ => "START"
  | .startSeeded _ _ => "START_SEEDED"
  | .cancel _ _ => "CANCEL"
  | .beginBlock _ _ _ _ => "BEGIN_BLOCK"
  | .finish _ _ _ => "FINISH"
  | .waitOut _ _ _ => "WAIT_OUT"
  | .schedLoad _ _ _ => "SCHED_LOAD"
  | .underrun _ _ => "UNDERRUN"
  | .waitIn _ _ => "WAIT_IN"
  | .schedExpand _ _ _ _ => "SCHED_EXPAND"
  | .round _ _ _ _ _ => "ROUND"
  | .fold _ _ _ _ _ => "FOLD"
  | .holdIdle _ _ _ _ _ => "HOLD_IDLE"
  | .holdDone _ _ _ _ _ => "HOLD_DONE"
  | .holdFailed _ _ _ _ _ => "HOLD_FAILED"

end Sys2Proof
end

