-- ==== Sys2Proof/Decode.lean ====
section
/-!
DEFINITION. Decoding and encoding of the operations: the three formats PIN, CMD and STEP of 30_encoding.md (R60 to
R66, R75).
-/
namespace Sys2Proof

/-- What selects an operation (R60): the reset pin, a command word, or a dispatch key. -/
inductive OpWord where
  | pin (rst : BitVec 1)
  | cmd (w : CmdWord)
  | step (key : BitVec 8)
deriving DecidableEq, Repr

/-- Why a word selects no operation. -/
inductive DecodeError where
  /-- the reset pin is 0: format PIN has one row, `rst = 1` (R66) -/
  | resetNotAsserted
  /-- a dispatch key that no STEP row matches: 0xE0 to 0xFF (R66, R71) -/
  | reservedKey (key : BitVec 8)
deriving DecidableEq, Repr

/-- The `op` field of a command word, bits 289:288 (R61). -/
def cmdOp (w : CmdWord) : BitVec 2 := w.extractLsb' 288 2

/-- The `nblocks` field, bits 287:256 (R61). -/
def cmdNblocks (w : CmdWord) : BlockCount := w.extractLsb' 256 32

/-- The `seed` field, bits 255:0 (R61). -/
def cmdSeed (w : CmdWord) : BitVec 256 := w.extractLsb' 0 256

/-- The codes of `op` (R61). -/
def opNop : BitVec 2 := 0b00#2
def opStart : BitVec 2 := 0b01#2
def opStartSeeded : BitVec 2 := 0b10#2
def opCancel : BitVec 2 := 0b11#2

/-- The command word with the given fields (R61). -/
def cmdWordOf (op : BitVec 2) (nblocks : BlockCount) (seed : BitVec 256) : CmdWord := op ++ nblocks ++ seed

/-- Format CMD: every word is legal (R68). -/
def decodeCmd (w : CmdWord) : Instr :=
  if cmdOp w = opNop then .nop (cmdNblocks w) (cmdSeed w)
  else if cmdOp w = opStart then .start (cmdNblocks w) (cmdSeed w)
  else if cmdOp w = opStartSeeded then .startSeeded (cmdNblocks w) (cmdSeed w)
  else .cancel (cmdNblocks w) (cmdSeed w)

/-- A row of format STEP: it selects its operation for a key `k` exactly when `k and mask = pattern` (R66). -/
structure StepRow where
  mnemonic : String
  mask : BitVec 8
  pattern : BitVec 8
  build : BitVec 8 → Instr

/-- The STEP rows of R66, with `nz`, `lo`, `iv`, `ie`, `or` at bits 4 to 0 of the key (R65). -/
def stepRows : List StepRow :=
  [ ⟨"BEGIN_BLOCK", 0xF0#8, 0x30#8, fun k => .beginBlock (k.getLsbD 3) (k.getLsbD 2) (k.getLsbD 1) (k.getLsbD 0)⟩,
    ⟨"FINISH", 0xF1#8, 0x21#8, fun k => .finish (k.getLsbD 3) (k.getLsbD 2) (k.getLsbD 1)⟩,
    ⟨"WAIT_OUT", 0xF1#8, 0x20#8, fun k => .waitOut (k.getLsbD 3) (k.getLsbD 2) (k.getLsbD 1)⟩,
    ⟨"SCHED_LOAD", 0xEC#8, 0x4C#8, fun k => .schedLoad (k.getLsbD 4) (k.getLsbD 1) (k.getLsbD 0)⟩,
    ⟨"UNDERRUN", 0xEE#8, 0x4A#8, fun k => .underrun (k.getLsbD 4) (k.getLsbD 0)⟩,
    ⟨"WAIT_IN", 0xEE#8, 0x48#8, fun k => .waitIn (k.getLsbD 4) (k.getLsbD 0)⟩,
    ⟨"SCHED_EXPAND", 0xE8#8, 0x40#8,
      fun k => .schedExpand (k.getLsbD 4) (k.getLsbD 2) (k.getLsbD 1) (k.getLsbD 0)⟩,
    ⟨"ROUND", 0xE0#8, 0x60#8,
      fun k => .round (k.getLsbD 4) (k.getLsbD 3) (k.getLsbD 2) (k.getLsbD 1) (k.getLsbD 0)⟩,
    ⟨"FOLD", 0xE0#8, 0x80#8,
      fun k => .fold (k.getLsbD 4) (k.getLsbD 3) (k.getLsbD 2) (k.getLsbD 1) (k.getLsbD 0)⟩,
    ⟨"HOLD_IDLE", 0xE0#8, 0x00#8,
      fun k => .holdIdle (k.getLsbD 4) (k.getLsbD 3) (k.getLsbD 2) (k.getLsbD 1) (k.getLsbD 0)⟩,
    ⟨"HOLD_DONE", 0xE0#8, 0xA0#8,
      fun k => .holdDone (k.getLsbD 4) (k.getLsbD 3) (k.getLsbD 2) (k.getLsbD 1) (k.getLsbD 0)⟩,
    ⟨"HOLD_FAILED", 0xE0#8, 0xC0#8,
      fun k => .holdFailed (k.getLsbD 4) (k.getLsbD 3) (k.getLsbD 2) (k.getLsbD 1) (k.getLsbD 0)⟩ ]

/-- The row matches the key (R66). -/
def StepRow.matchesKey (r : StepRow) (k : BitVec 8) : Bool := k &&& r.mask == r.pattern

/-- Format STEP: the operation of the row the key matches; the rows are disjoint, so their order is immaterial
(R71). -/
def decodeKey (k : BitVec 8) : Except DecodeError Instr :=
  match stepRows.find? (fun r => r.matchesKey k) with
  | some r => .ok (r.build k)
  | none => .error (.reservedKey k)

/-- Format PIN (R66). -/
def decodePin (rst : BitVec 1) : Except DecodeError Instr :=
  if rst = 1#1 then .ok .reset else .error .resetNotAsserted

/-- The decoder: total on the words of the three formats. -/
def decode : OpWord → Except DecodeError Instr
  | .pin rst => decodePin rst
  | .cmd w => .ok (decodeCmd w)
  | .step k => decodeKey k

/-- One bit of a key. -/
def keyBit (b : Bool) : BitVec 1 := BitVec.ofBool b

/-- The dispatch key with the given fields, `state` at bits 7:5 (R65). -/
def keyOf (state : BitVec 3) (nz lo iv ie ordy : Bool) : BitVec 8 :=
  state ++ keyBit nz ++ keyBit lo ++ keyBit iv ++ keyBit ie ++ keyBit ordy

/-- The encoder, from the encoding patterns of R66 and R75. -/
def encode : Instr → OpWord
  | .reset => .pin 1#1
  | .nop n s => .cmd (cmdWordOf 0b00#2 n s)
  | .start n s => .cmd (cmdWordOf 0b01#2 n s)
  | .startSeeded n s => .cmd (cmdWordOf 0b10#2 n s)
  | .cancel n s => .cmd (cmdWordOf 0b11#2 n s)
  | .beginBlock lo iv ie ordy => .step (keyOf 0b001#3 true lo iv ie ordy)
  | .finish lo iv ie => .step (keyOf 0b001#3 false lo iv ie true)
  | .waitOut lo iv ie => .step (keyOf 0b001#3 false lo iv ie false)
  | .schedLoad nz ie ordy => .step (keyOf 0b010#3 nz true true ie ordy)
  | .underrun nz ordy => .step (keyOf 0b010#3 nz true false true ordy)
  | .waitIn nz ordy => .step (keyOf 0b010#3 nz true false false ordy)
  | .schedExpand nz iv ie ordy => .step (keyOf 0b010#3 nz false iv ie ordy)
  | .round nz lo iv ie ordy => .step (keyOf 0b011#3 nz lo iv ie ordy)
  | .fold nz lo iv ie ordy => .step (keyOf 0b100#3 nz lo iv ie ordy)
  | .holdIdle nz lo iv ie ordy => .step (keyOf 0b000#3 nz lo iv ie ordy)
  | .holdDone nz lo iv ie ordy => .step (keyOf 0b101#3 nz lo iv ie ordy)
  | .holdFailed nz lo iv ie ordy => .step (keyOf 0b110#3 nz lo iv ie ordy)

/-- The word of the opcode table with `nbits` bits and value `w`, as one of the three formats (log 7): more than 8
bits is a command word; fewer than 8 bits is the reset pin; 8 bits is a dispatch key, but for the value 1, which is
the PIN row's word widened to a whole byte. -/
def tableWord (nbits w : Nat) : Option OpWord :=
  if 8 < nbits then (if w < 2 ^ 290 then some (.cmd (BitVec.ofNat 290 w)) else none)
  else if nbits < 8 ∨ w = 1 then (if w < 2 then some (.pin (BitVec.ofNat 1 w)) else none)
  else if w < 256 then some (.step (BitVec.ofNat 8 w)) else none

/-- What the decoder reads from a word numbered as spec/opcode_table.json numbers it (R75). -/
def decodeTableWord (nbits w : Nat) : Option Instr :=
  match tableWord nbits w with
  | none => none
  | some o =>
    match decode o with
    | .ok i => some i
    | .error _ => none

end Sys2Proof
end

