-- ==== Sys2Proof/Config.lean ====
section
/-!
DEFINITION. What stands outside the CORE and is free to it: the values its input ports carry in a step, and the
free value that supplies them where State's script says nothing (00_scope.md R14; 30_encoding.md R62).
-/
namespace Sys2Proof.Config

/-- The values the input ports of R62 carry during one step (the `Inputs` of R126). `clk` is no field: no rule
depends on it (log 15). -/
structure Pins where
  /-- synchronous reset, active high -/
  rst : Bool
  /-- the caller offers `cmdWord` on CMD (R45) -/
  cmdValid : Bool
  cmdWord : CmdWord
  /-- the source offers `inData` on IN (R42) -/
  inValid : Bool
  inData : Word
  /-- end of stream (R43) -/
  inEos : Bool
  /-- the output collaborator is ready on OUT (R44) -/
  outReady : Bool
deriving DecidableEq, Repr, Inhabited

/-- FREE VALUE (log 1, DESIGN CHOICE, safe). The port values of the step with index `tick`, where the script in
State has ended: the environment's signals are free inputs of each step (R14), so nothing constrains them. -/
opaque freePins : Nat → Pins

end Sys2Proof.Config
end

