-- ==== Sys2Proof/Machine/State.lean ====
section
/-!
DEFINITION. The state of the machine: the record of 10_state.md R20, the environment's side of a step, and the record
of the transfers that have happened.
-/
namespace Sys2Proof.Machine

/-- The controller states of R30. The reserved code 111 is unrepresentable, as R68 advises. -/
inductive Phase where
  | idle
  | awaitingBlock
  | expandingSchedule
  | compressing
  | folding
  | done
  | failed
deriving DecidableEq, Repr

/-- The values of `ERR` (R31, R64). -/
inductive ErrCode where
  | none
  | inputUnderrun
  /-- never written by the CORE (R152), kept representable (R68) -/
  | blockCountMismatch
  | cancelled
deriving DecidableEq, Repr

/-- A transfer on one of the three channels (R41), the transfer events of R126. -/
inductive Event where
  /-- CMD: a command word was accepted -/
  | command (w : CmdWord)
  /-- IN: a Word was taken -/
  | word (x : Word)
  /-- OUT: a digest was handed over -/
  | digest (d : Digest)
deriving DecidableEq, Repr

/-- The machine's state. `H` to `ERR` are the registers of R20 (the ROM `K` is the constant `Machine.K`, log 9). The
last three fields are the model's own: `script` and `tick` stand for the environment (log 1, log 2), `trace` records
the transfers, oldest first (log 3). -/
structure State where
  /-- the Digest State (R21) -/
  H : Words8
  /-- the Working State `a..h` (R24) -/
  V : Words8
  /-- the Schedule Window, `WIN[15]` the newest Word (R25) -/
  WIN : Words16
  /-- the round index (R27) -/
  T : BitVec 6
  /-- the remaining block count (R29) -/
  NREM : BlockCount
  /-- the controller state (R30) -/
  STATE : Phase
  /-- the error condition (R31) -/
  ERR : ErrCode
  /-- the port values of the coming steps, the next step's first -/
  script : List Config.Pins
  /-- how many steps have been made; the index of the free port values after the script's end -/
  tick : Nat
  /-- the transfers so far -/
  trace : List Event
deriving DecidableEq, Repr

/-- Why a step may stop. -/
inductive Fault where
  /-- Raised by `step` alone, when no STEP row matches the dispatch key (R68: stuck, no operation enabled). Safe, and
  unreachable: `STATE` cannot hold code 111, and every other key has a row (R71; log 8). -/
  | noOperation
deriving DecidableEq, Repr

/-- Why an operation may have no meaning. -/
inductive Refusal where
  /-- An operation not modelled. Safe. No arm of `exec` raises it. -/
  | notModelled (mnemonic : String)
deriving DecidableEq, Repr

/-- The state after RESET (R35, R170, R171). The model's own fields are empty (log 2, log 3). -/
def State.reset : State where
  H := Vector.replicate 8 0#32
  V := Vector.replicate 8 0#32
  WIN := Vector.replicate 16 0#32
  T := 0#6
  NREM := 0#32
  STATE := .idle
  ERR := .none
  script := []
  tick := 0
  trace := []

end Sys2Proof.Machine
end

