-- ==== Sys2Proof/Machine/Flags.lean ====
section
/-!
DEFINITION. The CORE keeps no condition code (R32). What its controller tests is computed when needed and stored
nowhere: the three predicates of R32, and *busy* (R16, R63).
-/
namespace Sys2Proof.Machine

/-- `NREM = 0` (R32). -/
def State.noBlocksLeft (s : State) : Bool := s.NREM == 0#32

/-- `T < 16`: the rounds whose schedule Word comes from IN (R32, R65). -/
def State.loadRound (s : State) : Bool := decide (s.T.toNat < 16)

/-- `T = 63` (R32). -/
def State.lastRound (s : State) : Bool := s.T == 63#6

/-- `STATE` is AwaitingBlock, ExpandingSchedule, Compressing or Folding (R63). -/
def State.busy (s : State) : Bool :=
  match s.STATE with
  | .idle => false
  | .awaitingBlock => true
  | .expandingSchedule => true
  | .compressing => true
  | .folding => true
  | .done => false
  | .failed => false

end Sys2Proof.Machine
end

