-- ==== Sys2Proof/Machine/Operands.lean ====
section
/-!
DEFINITION. Operand assembly and formats: codes of STATE and ERR (R63, R64), the packing of eight Words (R44, R61), the
port values of a step, the dispatch key (R65), the channel beats (R67), and the byte order at the collaborators
(R46, R47).
-/
namespace Sys2Proof.Machine

/-- The codes of `STATE` (R63). -/
def Phase.code : Phase → BitVec 3
  | .idle => 0b000#3
  | .awaitingBlock => 0b001#3
  | .expandingSchedule => 0b010#3
  | .compressing => 0b011#3
  | .folding => 0b100#3
  | .done => 0b101#3
  | .failed => 0b110#3

/-- The state with a given code; 111 is reserved (R63). -/
def Phase.ofCode (c : BitVec 3) : Option Phase :=
  if c = 0b000#3 then some .idle
  else if c = 0b001#3 then some .awaitingBlock
  else if c = 0b010#3 then some .expandingSchedule
  else if c = 0b011#3 then some .compressing
  else if c = 0b100#3 then some .folding
  else if c = 0b101#3 then some .done
  else if c = 0b110#3 then some .failed
  else none

/-- The codes of `ERR` (R64). -/
def ErrCode.code : ErrCode → BitVec 2
  | .none => 0b00#2
  | .inputUnderrun => 0b01#2
  | .blockCountMismatch => 0b10#2
  | .cancelled => 0b11#2

/-- Eight Words as one 256-bit value: Word `i` at bits `255-32i` to `224-32i` (R44, R61). -/
def pack8 (x : Words8) : BitVec 256 := x[0] ++ x[1] ++ x[2] ++ x[3] ++ x[4] ++ x[5] ++ x[6] ++ x[7]

/-- The eight Words cut from a 256-bit value by the same packing (R61, R69). -/
def words8 (d : BitVec 256) : Words8 :=
  #v[d.extractLsb' 224 32, d.extractLsb' 192 32, d.extractLsb' 160 32, d.extractLsb' 128 32,
     d.extractLsb' 96 32, d.extractLsb' 64 32, d.extractLsb' 32 32, d.extractLsb' 0 32]

/-- The values the input ports carry in this step (R126): the script's first, or the free value after its end (log 1). -/
def State.pins (s : State) : Config.Pins :=
  match s.script with
  | p :: _ => p
  | [] => Config.freePins s.tick

/-- The Word the source offers in this step: what `InTake()` returns (R12, R42). -/
def State.inTake (s : State) : Word := s.pins.inData

/-- The dispatch key of this step (R65). -/
def State.dispatchKey (s : State) : BitVec 8 :=
  keyOf s.STATE.code (!s.noBlocksLeft) s.loadRound s.pins.inValid s.pins.inEos s.pins.outReady

/-- Format INBEAT: what the source drives in one step, in_eos, in_valid, in_data (R67). -/
def inBeat (p : Config.Pins) : BitVec 34 := keyBit p.inEos ++ keyBit p.inValid ++ p.inData

/-- The Word made of four message bytes, the first in bits 31:24 (R46). -/
def wordOfBytes (b0 b1 b2 b3 : BitVec 8) : Word := b0 ++ b1 ++ b2 ++ b3

/-- Byte `n` of the 32-byte digest, for `n` from 0 to 31: byte `4i + j` is bits `31-8j` to `24-8j` of Word `i` (R47). -/
def digestByte (d : Digest) (n : Nat) : BitVec 8 := d.extractLsb' (248 - 8 * n) 8

end Sys2Proof.Machine
end

