-- ==== Sys2Proof/Machine/Ops.lean ====
section
/-!
DEFINITION. The shared operations on the state: clearing, the failure entry R154 and the start of a computation (its only
way out, R158), the record of a transfer, and the passing of one step of the environment.
-/
namespace Sys2Proof.Machine

/-- Every Word of `H`, `V`, `WIN`, and `T` and `NREM`, cleared (R37): the `Zero` of R140. -/
def State.zeroData (s : State) : State :=
  { s with H := Vector.replicate 8 0#32, V := Vector.replicate 8 0#32, WIN := Vector.replicate 16 0#32,
           T := 0#6, NREM := 0#32 }

/-- FAILURE ENTRY `raise C` (R154): all data cleared, the code recorded, `STATE` Failed, nothing saved. -/
def State.raiseCondition (c : ErrCode) (s : State) : State :=
  { s.zeroData with ERR := c, STATE := .failed }

/-- A computation begins with the given seed and Block Count (R127, R128). This is also the only way out of Failed but
for RESET; no return into a failed computation exists (R158). -/
def State.beginRun (seed : Words8) (n : BlockCount) (s : State) : State :=
  { s.zeroData with H := seed, NREM := n, ERR := .none, STATE := .awaitingBlock }

/-- A transfer happened. -/
def State.record (e : Event) (s : State) : State := { s with trace := s.trace ++ [e] }

/-- The environment goes on to the next step's port values. -/
def State.advance (s : State) : State := { s with script := s.script.tail, tick := s.tick + 1 }

/-- The outcome `o`, and from its next state on, `f`. -/
def andThen (o : Host.Outcome State Fault Refusal) (f : State → Host.Outcome State Fault Refusal) :
    Host.Outcome State Fault Refusal :=
  match o with
  | .next s => f s
  | .fault r => .fault r
  | .refused r => .refused r

end Sys2Proof.Machine
end

