-- ==== Sys2Proof/Machine/Accumulator.lean ====
section
/-!
DEFINITION. The digest accumulator: BEGIN_BLOCK, FOLD, FINISH (42_accumulator.md R112 to R114).
-/
namespace Sys2Proof.Machine

/-- BEGIN_BLOCK (R112). -/
def execBeginBlock (s : State) : Host.Outcome State Fault Refusal :=
  .next { s with V := s.H, WIN := Vector.replicate 16 0#32, T := 0#6, STATE := .expandingSchedule }

/-- FOLD (R113). -/
def execFold (s : State) : Host.Outcome State Fault Refusal :=
  .next { s with H := add8 s.H s.V, NREM := s.NREM - 1#32, STATE := .awaitingBlock }

/-- FINISH (R114): the transfer on OUT carries `H`; everything is cleared; `ERR` is unchanged. -/
def execFinish (s : State) : Host.Outcome State Fault Refusal :=
  .next { (s.record (.digest (pack8 s.H))).zeroData with STATE := .done }

end Sys2Proof.Machine
end

