-- ==== Sys2Proof/Machine/Commands.lean ====
section
/-!
DEFINITION. Format CMD: the caller's commands (43_controller.md R127 to R131). A command that is accepted is a transfer
on CMD; its whole word is recorded, the ignored fields too.
-/
namespace Sys2Proof.Machine

/-- NOP (R130): accepted in every state, changes nothing. The step performs its internal operation as well (`selection`). -/
def execNop (n : BlockCount) (seed : BitVec 256) (s : State) : Host.Outcome State Fault Refusal :=
  .next (s.record (.command (cmdWordOf opNop n seed)))

/-- START (R127): the default seed. Offered to a busy CORE it is not accepted and nothing of it happens (R45, R131). -/
def execStart (n : BlockCount) (seed : BitVec 256) (s : State) : Host.Outcome State Fault Refusal :=
  if s.busy then .next s
  else .next ((s.record (.command (cmdWordOf opStart n seed))).beginRun IV n)

/-- START_SEEDED (R128): the seed of the command word. -/
def execStartSeeded (n : BlockCount) (seed : BitVec 256) (s : State) : Host.Outcome State Fault Refusal :=
  if s.busy then .next s
  else .next ((s.record (.command (cmdWordOf opStartSeeded n seed))).beginRun (words8 seed) n)

/-- CANCEL (R129): accepted in every state; raises Cancelled when busy (R153), else changes nothing. -/
def execCancel (n : BlockCount) (seed : BitVec 256) (s : State) : Host.Outcome State Fault Refusal :=
  let t := s.record (.command (cmdWordOf opCancel n seed))
  if s.busy then .next (t.raiseCondition .cancelled) else .next t

end Sys2Proof.Machine
end

