-- ==== Sys2Proof/Machine/Controller.lean ====
section
/-!
DEFINITION. The controller's failure and holds: UNDERRUN (60_exceptions.md R151), WAIT_IN, WAIT_OUT and the holds of the
rest states (43_controller.md R136 to R138). A hold is a step that changes nothing (R52).
-/
namespace Sys2Proof.Machine

/-- UNDERRUN (R151). -/
def execUnderrun (s : State) : Host.Outcome State Fault Refusal := .next (s.raiseCondition .inputUnderrun)

/-- WAIT_IN (R136). -/
def execWaitIn (s : State) : Host.Outcome State Fault Refusal := .next s

/-- WAIT_OUT (R137). -/
def execWaitOut (s : State) : Host.Outcome State Fault Refusal := .next s

/-- HOLD_IDLE (R138). -/
def execHoldIdle (s : State) : Host.Outcome State Fault Refusal := .next s

/-- HOLD_END in Done (R138). -/
def execHoldDone (s : State) : Host.Outcome State Fault Refusal := .next s

/-- HOLD_END in Failed (R138). -/
def execHoldFailed (s : State) : Host.Outcome State Fault Refusal := .next s

end Sys2Proof.Machine
end

