-- ==== Sys2Proof/Machine/Reset.lean ====
section
/-!
DEFINITION. Format PIN: the operation RESET (70_reset_and_hazards.md R170).
-/
namespace Sys2Proof.Machine

/-- RESET (R170): from any state; no transfer happens. -/
def execReset (s : State) : Host.Outcome State Fault Refusal :=
  .next { s.zeroData with STATE := .idle, ERR := .none }

end Sys2Proof.Machine
end

