-- ==== Sys2Proof/Machine/Round.lean ====
section
/-!
DEFINITION. The compression round engine: ROUND (41_round.md R101).
-/
namespace Sys2Proof.Machine

/-- ROUND (R101): the round transform on `V` with `K[T]` and `WIN[15]`; after round 63 the block is ready to fold and
`T` stays 63. -/
def execRound (s : State) : Host.Outcome State Fault Refusal :=
  let v := roundOf s.V (K s.T) s.WIN[15]
  if s.lastRound then .next { s with V := v, STATE := .folding }
  else .next { s with V := v, T := s.T + 1#6, STATE := .expandingSchedule }

end Sys2Proof.Machine
end

