-- ==== Sys2Proof/Machine/Schedule.lean ====
section
/-!
DEFINITION. The message-schedule generator: SCHED_LOAD and SCHED_EXPAND (40_schedule.md R85, R86).
-/
namespace Sys2Proof.Machine

/-- SCHED_LOAD (R85): the Word offered on IN is taken and shifted in. -/
def execSchedLoad (s : State) : Host.Outcome State Fault Refusal :=
  .next { s.record (.word s.inTake) with WIN := shiftIn s.WIN s.inTake, STATE := .compressing }

/-- SCHED_EXPAND (R86): the new schedule Word is computed from the window before the shift. -/
def execSchedExpand (s : State) : Host.Outcome State Fault Refusal :=
  .next { s with WIN := shiftIn s.WIN (expandWord s.WIN), STATE := .compressing }

end Sys2Proof.Machine
end

