-- ==== Sys2Proof/Machine/Dispatch.lean ====
section
/-!
DEFINITION. The dispatch of an operation to its meaning.
-/
namespace Sys2Proof.Machine

def exec (i : Instr) (s : State) : Host.Outcome State Fault Refusal :=
  match i with
  | .reset => Sys2Proof.Machine.execReset s
  | .nop n seed => Sys2Proof.Machine.execNop n seed s
  | .start n seed => Sys2Proof.Machine.execStart n seed s
  | .startSeeded n seed => Sys2Proof.Machine.execStartSeeded n seed s
  | .cancel n seed => Sys2Proof.Machine.execCancel n seed s
  | .beginBlock _ _ _ _ => Sys2Proof.Machine.execBeginBlock s
  | .finish _ _ _ => Sys2Proof.Machine.execFinish s
  | .waitOut _ _ _ => Sys2Proof.Machine.execWaitOut s
  | .schedLoad _ _ _ => Sys2Proof.Machine.execSchedLoad s
  | .underrun _ _ => Sys2Proof.Machine.execUnderrun s
  | .waitIn _ _ => Sys2Proof.Machine.execWaitIn s
  | .schedExpand _ _ _ _ => Sys2Proof.Machine.execSchedExpand s
  | .round _ _ _ _ _ => Sys2Proof.Machine.execRound s
  | .fold _ _ _ _ _ => Sys2Proof.Machine.execFold s
  | .holdIdle _ _ _ _ _ => Sys2Proof.Machine.execHoldIdle s
  | .holdDone _ _ _ _ _ => Sys2Proof.Machine.execHoldDone s
  | .holdFailed _ _ _ _ _ => Sys2Proof.Machine.execHoldFailed s

end Sys2Proof.Machine
end

