-- ==== Sys2Proof/Machine/Outputs.lean ====
section
/-!
DEFINITION. What the CORE drives in a step (30_encoding.md R62) and which transfers happen in it (20_memory.md R41 to
R45; 30_encoding.md R70).
-/
namespace Sys2Proof.Machine

/-- The output ports of R62. -/
structure Outputs where
  cmdReady : Bool
  inReady : Bool
  outValid : Bool
  outData : Digest
  stState : BitVec 3
  stErr : BitVec 2
deriving DecidableEq, Repr

/-- The transfer events of a step (R126). -/
structure Transfers where
  /-- CMD taken -/
  cmd : Option CmdWord
  /-- IN taken -/
  inp : Option Word
  /-- OUT given -/
  out : Option Digest
deriving DecidableEq, Repr

/-- `cmd_ready` for an offered opcode (R45, R131). -/
def State.cmdReady (s : State) (op : BitVec 2) : Bool :=
  op == opNop || op == opCancel || ((op == opStart || op == opStartSeeded) && !s.busy)

/-- `in_ready` (R42). -/
def State.inReady (s : State) : Bool := decide (s.STATE = .expandingSchedule) && s.loadRound

/-- `out_valid` (R44). -/
def State.outValid (s : State) : Bool := decide (s.STATE = .awaitingBlock) && s.noBlocksLeft

/-- `out_data`: the Digest State when valid, else zero (R44). -/
def State.outData (s : State) : Digest := if s.outValid then pack8 s.H else 0#256

/-- The outputs: functions of the state before the step, and `cmd_ready` of the offered opcode too (R62, R140). -/
def outputs (s : State) : Outputs where
  cmdReady := s.cmdReady (cmdOp s.pins.cmdWord)
  inReady := s.inReady
  outValid := s.outValid
  outData := s.outData
  stState := s.STATE.code
  stErr := s.ERR.code

/-- A CANCEL is presented in this step. -/
def State.cancelOffered (s : State) : Bool := s.pins.cmdValid && cmdOp s.pins.cmdWord == opCancel

/-- The transfers of this step. RESET lets none happen (R170), CANCEL none on IN and OUT (R70). -/
def transfers (s : State) : Transfers where
  cmd := if !s.pins.rst && s.pins.cmdValid && s.cmdReady (cmdOp s.pins.cmdWord) then some s.pins.cmdWord else none
  inp := if !s.pins.rst && !s.cancelOffered && s.pins.inValid && s.inReady then some s.pins.inData else none
  out := if !s.pins.rst && !s.cancelOffered && s.outValid && s.pins.outReady then some s.outData else none

/-- The transfers as trace entries: at most one on CMD, and at most one on IN or OUT. -/
def Transfers.events (x : Transfers) : List Event :=
  (x.cmd.map Event.command).toList ++ (x.inp.map Event.word).toList ++ (x.out.map Event.digest).toList

/-- Format OUTBEAT: out_valid, out_data (R67). -/
def outBeat (o : Outputs) : BitVec 257 := keyBit o.outValid ++ o.outData

end Sys2Proof.Machine
end

