-- ==== Sys2Proof/Machine/Select.lean ====
section
/-!
DEFINITION. The selection of the operation of a step (30_encoding.md R70), and the placing of a given operation word as
the one the next step selects (log 6).
-/
namespace Sys2Proof.Machine

/-- START or START_SEEDED is presented to a CORE that is not busy. -/
def State.startAccepted (s : State) : Bool :=
  s.pins.cmdValid && (cmdOp s.pins.cmdWord == opStart || cmdOp s.pins.cmdWord == opStartSeeded) && !s.busy

/-- A NOP is presented. -/
def State.nopOffered (s : State) : Bool := s.pins.cmdValid && cmdOp s.pins.cmdWord == opNop

/-- The operation of this step in the order of R70: RESET, CANCEL, START or START_SEEDED when not busy, else the STEP
operation of the dispatch key. The first component is a NOP accepted in the same step; it is performed before the
second and changes nothing (R130; log 12). -/
def selection (s : State) : Except DecodeError (Option Instr × Instr) :=
  if s.pins.rst then
    match decode (.pin 1#1) with
    | .ok i => .ok (none, i)
    | .error e => .error e
  else if s.cancelOffered || s.startAccepted then
    match decode (.cmd s.pins.cmdWord) with
    | .ok i => .ok (none, i)
    | .error e => .error e
  else
    match decode (.step s.dispatchKey) with
    | .ok i => .ok (if s.nopOffered then some (decodeCmd s.pins.cmdWord) else none, i)
    | .error e => .error e

/-- Port values with which nothing is offered (R73, `STALL`, with `in_eos = 0`). -/
def quietPins : Config.Pins where
  rst := false
  cmdValid := false
  cmdWord := 0#290
  inValid := false
  inData := 0#32
  inEos := false
  outReady := false

/-- `s` with the port values `p` in its next step. -/
def State.withPins (s : State) (p : Config.Pins) : State := { s with script := p :: s.script.tail }

/-- `s` brought to form the dispatch key `k` in its next step: `STATE` by bits 7:5, `NREM` and `T` only where bits 4
and 3 ask for other values, the port values by bits 2 to 0 (R65). A reserved key leaves `s` as it is. -/
def State.withKey (s : State) (k : BitVec 8) : State :=
  match Phase.ofCode (k.extractLsb' 5 3) with
  | none => s
  | some ph =>
    { s with
      STATE := ph
      NREM := if k.getLsbD 4 then (if s.noBlocksLeft then 1#32 else s.NREM) else 0#32
      T := if k.getLsbD 3 then (if s.loadRound then s.T else 0#6) else (if s.loadRound then 16#6 else s.T)
      script := { quietPins with inValid := k.getLsbD 2, inEos := k.getLsbD 1, outReady := k.getLsbD 0 }
                  :: s.script.tail }

/-- `s` with the operation word `o` as what its next step selects (log 6). A START or START_SEEDED needs a CORE that is
not busy (R127), so a busy one is set to Idle. -/
def State.place (s : State) (o : OpWord) : State :=
  match o with
  | .pin rst => s.withPins { quietPins with rst := rst == 1#1 }
  | .cmd w =>
    let t := s.withPins { quietPins with cmdValid := true, cmdWord := w }
    if (cmdOp w == opStart || cmdOp w == opStartSeeded) && s.busy then { t with STATE := .idle } else t
  | .step k => s.withKey k

end Sys2Proof.Machine
end

