-- ==== Sys2Proof/Machine/Step.lean ====
section
/-!
DEFINITION. One step of the CORE (43_controller.md R126): the operations the selection names, then the environment goes
on to its next port values.
-/
namespace Sys2Proof.Machine

/-- Perform a NOP accepted in the step, if there is one. -/
def execAccepted (n : Option Instr) (s : State) : Host.Outcome State Fault Refusal :=
  match n with
  | none => .next s
  | some i => exec i s

/-- One step: a total function of the state and its port values (R126). -/
def step (s : State) : Host.Outcome State Fault Refusal :=
  match selection s with
  | .ok (n, i) => andThen (andThen (execAccepted n s) (exec i)) (fun t => .next t.advance)
  | .error _ => .fault .noOperation

/-- `s` with the opcode-table word of `nbits` bits and value `w` as what its next step selects and runs (log 6, log 7). -/
def State.withFetchWord (s : State) (nbits w : Nat) : State :=
  match tableWord nbits w with
  | some o => s.place o
  | none => s

end Sys2Proof.Machine
end

