-- ==== Sys2Proof/Machine/Effects.lean ====
section
/-!
DEFINITION. The effect of each operation on the registers as its rule lists it, Word by Word, as a relation between the
state before (`s`) and after (`t`). The meanings do not use this file; the statements do.
-/
namespace Sys2Proof.Machine

/-- The operation leaves the environment alone, and transfers exactly `es`. -/
def Moves (es : List Event) (s t : State) : Prop :=
  t.script = s.script ∧ t.tick = s.tick ∧ t.trace = s.trace ++ es

/-- Every Word of `H`, `V`, `WIN` is zero, `T = 0`, `NREM = 0` (R37). -/
def AllZero (t : State) : Prop :=
  (∀ i : Fin 8, t.H[i] = 0#32) ∧ (∀ i : Fin 8, t.V[i] = 0#32) ∧ (∀ i : Fin 16, t.WIN[i] = 0#32) ∧
  t.T = 0#6 ∧ t.NREM = 0#32

/-- RESET (R170). -/
def ResetEffect (t : State) : Prop := t.STATE = .idle ∧ t.ERR = .none ∧ AllZero t

/-- START and START_SEEDED (R127, R128), with the seed's Words. -/
def StartEffect (seed : Fin 8 → Word) (n : BlockCount) (t : State) : Prop :=
  (∀ i : Fin 8, t.H[i] = seed i) ∧ (∀ i : Fin 8, t.V[i] = 0#32) ∧ (∀ i : Fin 16, t.WIN[i] = 0#32) ∧
  t.T = 0#6 ∧ t.NREM = n ∧ t.ERR = .none ∧ t.STATE = .awaitingBlock

/-- `raise c` (R154). -/
def RaiseEffect (c : ErrCode) (t : State) : Prop := AllZero t ∧ t.ERR = c ∧ t.STATE = .failed

/-- BEGIN_BLOCK (R112). -/
def BeginBlockEffect (s t : State) : Prop :=
  (∀ i : Fin 8, t.V[i] = s.H[i]) ∧ (∀ i : Fin 16, t.WIN[i] = 0#32) ∧ t.T = 0#6 ∧ t.STATE = .expandingSchedule ∧
  t.H = s.H ∧ t.NREM = s.NREM ∧ t.ERR = s.ERR

/-- FOLD (R113), without borrow: `NREM` counts down as a number. -/
def FoldEffect (s t : State) : Prop :=
  (∀ i : Fin 8, t.H[i] = s.H[i] + s.V[i]) ∧ t.NREM = s.NREM - 1#32 ∧ t.STATE = .awaitingBlock ∧
  t.V = s.V ∧ t.WIN = s.WIN ∧ t.T = s.T ∧ t.ERR = s.ERR

/-- FINISH (R114), but for its transfer. -/
def FinishEffect (s t : State) : Prop := AllZero t ∧ t.STATE = .done ∧ t.ERR = s.ERR

/-- `ShiftIn(w)` (R84). -/
def ShiftedIn (w : Word) (s t : State) : Prop :=
  (∀ i : Fin 15, t.WIN[i.val]'(by omega) = s.WIN[i.val + 1]'(by omega)) ∧ t.WIN[15] = w

/-- SCHED_LOAD (R85) and SCHED_EXPAND (R86), with the Word shifted in. -/
def ScheduleEffect (w : Word) (s t : State) : Prop :=
  ShiftedIn w s t ∧ t.STATE = .compressing ∧
  t.T = s.T ∧ t.NREM = s.NREM ∧ t.H = s.H ∧ t.V = s.V ∧ t.ERR = s.ERR

/-- ROUND (R101), with `K[T]` given. -/
def RoundEffect (k : Word) (s t : State) : Prop :=
  let a := s.V[0]; let b := s.V[1]; let c := s.V[2]; let d := s.V[3]
  let e := s.V[4]; let f := s.V[5]; let g := s.V[6]; let h := s.V[7]
  let t1 := k + Sigma1 e + Ch e f g + h + s.WIN[15]
  let t2 := Sigma0 a + Maj a b c
  t.V[0] = t1 + t2 ∧ t.V[1] = a ∧ t.V[2] = b ∧ t.V[3] = c ∧
  t.V[4] = d + t1 ∧ t.V[5] = e ∧ t.V[6] = f ∧ t.V[7] = g ∧
  (s.T.toNat = 63 → t.STATE = .folding ∧ t.T.toNat = 63) ∧
  (s.T.toNat ≠ 63 → t.T.toNat = s.T.toNat + 1 ∧ t.STATE = .expandingSchedule) ∧
  t.WIN = s.WIN ∧ t.H = s.H ∧ t.NREM = s.NREM ∧ t.ERR = s.ERR

end Sys2Proof.Machine
end

