-- ==== Sys2Proof/Machine/Stimulus.lean ====
section
/-!
DEFINITION. The stimulus scripts of 30_encoding.md R73, the spec's "assembler": what the environment drives in a step
while a line of a script is current, and when the line is done (log 18). The CORE uses nothing of this file. The
pseudo-stimuli of R74 are here too, with the padding rule of 95_test_vectors.md section 1 (log 19).
-/
namespace Sys2Proof.Machine

/-- The lines of R73. -/
inductive Stimulus where
  | reset
  | start (n : BlockCount)
  | startSeeded (n : BlockCount) (seed : Words8)
  | cancel
  | nop
  | push (w : Word)
  | eos
  | pop
  | stall (k : Nat)
  | expectDigest (d : Digest)
  | expectFailed (e : ErrCode)
deriving DecidableEq, Repr

/-- A running script: the lines to come, and the two levels that stay driven "from now on" (R73). -/
structure Bench where
  lines : List Stimulus
  eos : Bool
  pop : Bool
deriving DecidableEq, Repr

/-- What a line drives in one step, on top of the levels in force (R73). In a STALL, and while an EXPECT line waits,
nothing is offered on CMD and IN. -/
def Stimulus.drive (b : Bench) : Stimulus → Config.Pins
  | .reset => { quietPins with rst := true, inEos := b.eos, outReady := b.pop }
  | .start n =>
    { quietPins with cmdValid := true, cmdWord := cmdWordOf opStart n 0#256, inEos := b.eos, outReady := b.pop }
  | .startSeeded n seed =>
    { quietPins with
      cmdValid := true, cmdWord := cmdWordOf opStartSeeded n (pack8 seed), inEos := b.eos, outReady := b.pop }
  | .cancel =>
    { quietPins with cmdValid := true, cmdWord := cmdWordOf opCancel 0#32 0#256, inEos := b.eos, outReady := b.pop }
  | .nop =>
    { quietPins with cmdValid := true, cmdWord := cmdWordOf opNop 0#32 0#256, inEos := b.eos, outReady := b.pop }
  | .push w => { quietPins with inValid := true, inData := w, outReady := b.pop }
  | .stall _ => { quietPins with inEos := b.eos }
  | .eos => { quietPins with inEos := true, outReady := b.pop }
  | .pop => { quietPins with inEos := b.eos, outReady := true }
  | .expectDigest _ => { quietPins with inEos := b.eos, outReady := b.pop }
  | .expectFailed _ => { quietPins with inEos := b.eos, outReady := b.pop }

/-- EOS and POP take no step of their own: they set a level and the next line is current at once (R73). `STALL 0` is
no step either. -/
def Bench.settle (eos pop : Bool) : List Stimulus → Bench
  | .eos :: rest => Bench.settle true pop rest
  | .pop :: rest => Bench.settle eos true rest
  | .stall 0 :: rest => Bench.settle eos pop rest
  | rest => ⟨rest, eos, pop⟩

/-- The port values of the next step of the script. -/
def Bench.pins (b : Bench) : Config.Pins :=
  match b.lines with
  | [] => { quietPins with inEos := b.eos, outReady := b.pop }
  | l :: _ => l.drive b

/-- What is left of the script after a step in which `x` was transferred. START and START_SEEDED end at their
acceptance, which ends the `in_eos` level too (R43); PUSH at its taking; an EXPECT line, which waits, at the transfer or
the failure it names; every other line after its step or steps. POP ends at a transfer on OUT. -/
def Bench.next (b : Bench) (x : Transfers) (t : State) : Bench :=
  let pop := b.pop && x.out.isNone
  match b.lines with
  | [] => ⟨[], b.eos, pop⟩
  | .start n :: rest =>
    if x.cmd.isSome then Bench.settle false pop rest else ⟨.start n :: rest, b.eos, pop⟩
  | .startSeeded n seed :: rest =>
    if x.cmd.isSome then Bench.settle false pop rest else ⟨.startSeeded n seed :: rest, b.eos, pop⟩
  | .push w :: rest => if x.inp.isSome then Bench.settle b.eos pop rest else ⟨.push w :: rest, b.eos, pop⟩
  | .stall k :: rest => if k ≤ 1 then Bench.settle b.eos pop rest else ⟨.stall (k - 1) :: rest, b.eos, pop⟩
  | .expectDigest d :: rest =>
    if x.out = some d then Bench.settle b.eos pop rest else ⟨.expectDigest d :: rest, b.eos, pop⟩
  | .expectFailed e :: rest =>
    if t.STATE = .failed ∧ t.ERR = e then Bench.settle b.eos pop rest else ⟨.expectFailed e :: rest, b.eos, pop⟩
  | .reset :: rest => Bench.settle b.eos pop rest
  | .cancel :: rest => Bench.settle b.eos pop rest
  | .nop :: rest => Bench.settle b.eos pop rest
  | .eos :: rest => Bench.settle true pop rest
  | .pop :: rest => Bench.settle b.eos true rest

/-- At most `fuel` steps of the machine under the script, until its last line is done. -/
def Bench.run : Nat → Bench → State → Bench × State
  | 0, b, s => (b, s)
  | fuel + 1, b, s =>
    if b.lines.isEmpty then (b, s)
    else
      let p := s.withPins b.pins
      match step p with
      | .next t => Bench.run fuel (b.next (transfers p) t) t
      | .fault _ => (b, s)
      | .refused _ => (b, s)

/-- `BLOCK w0 ... w15` (R74). -/
def blockLines (M : Words16) : List Stimulus := M.toList.map Stimulus.push

/-- The padding of a message, as bytes: 0x80, zeros, the bit length as 64 bits, big-endian (95_test_vectors.md
section 1; general knowledge there, log 19). -/
def padBytes (m : List (BitVec 8)) : List (BitVec 8) :=
  let zeros := (64 - (m.length + 9) % 64) % 64
  let bits := BitVec.ofNat 64 (8 * m.length)
  m ++ [0x80#8] ++ List.replicate zeros 0#8 ++
    [bits.extractLsb' 56 8, bits.extractLsb' 48 8, bits.extractLsb' 40 8, bits.extractLsb' 32 8,
     bits.extractLsb' 24 8, bits.extractLsb' 16 8, bits.extractLsb' 8 8, bits.extractLsb' 0 8]

/-- Bytes as big-endian Words (R46). -/
def wordsOfBytes : List (BitVec 8) → List Word
  | b0 :: b1 :: b2 :: b3 :: rest => wordOfBytes b0 b1 b2 b3 :: wordsOfBytes rest
  | _ => []

/-- `MESSAGE` of a text given by its bytes (R74). -/
def messageLines (m : List (BitVec 8)) : List Stimulus := (wordsOfBytes (padBytes m)).map Stimulus.push

/-- How many blocks the padded message has (95_test_vectors.md section 1). -/
def messageBlocks (m : List (BitVec 8)) : Nat := (m.length + 8) / 64 + 1

/-- `HASH` of a text given by its bytes (R74). -/
def hashLines (m : List (BitVec 8)) : List Stimulus :=
  .start (BitVec.ofNat 32 (messageBlocks m)) :: messageLines m ++ [.eos, .pop]

end Sys2Proof.Machine
end

