-- ==== Sys2Proof/Machine/Reference.lean ====
section
/-!
DEFINITION. The reference functions the spec states its results with, used by no operation: the message schedule (R89),
the 64 rounds (R106), the block function (R115), the chain (R116), and the step function as R140 writes it.
-/
namespace Sys2Proof.Machine

/-- `W[t]` of the block `M`, for every `t` (R89). -/
def sched (M : Words16) : Nat → Word
  | 0 => M[0]
  | 1 => M[1]
  | 2 => M[2]
  | 3 => M[3]
  | 4 => M[4]
  | 5 => M[5]
  | 6 => M[6]
  | 7 => M[7]
  | 8 => M[8]
  | 9 => M[9]
  | 10 => M[10]
  | 11 => M[11]
  | 12 => M[12]
  | 13 => M[13]
  | 14 => M[14]
  | 15 => M[15]
  | n + 16 => sigma1 (sched M (n + 14)) + sched M (n + 9) + sigma0 (sched M (n + 1)) + sched M n

/-- `V_t` of R106: the Working State after the rounds below `t`. -/
def roundsTo (v : Words8) (M : Words16) : Nat → Words8
  | 0 => v
  | t + 1 => roundOf (roundsTo v M t) (K (BitVec.ofNat 6 t)) (sched M t)

/-- R106. -/
def rounds64 (v : Words8) (M : Words16) : Words8 := roundsTo v M 64

/-- R115. -/
def compress (x : Words8) (M : Words16) : Words8 := add8 x (rounds64 x M)

/-- R116. -/
def chain (seed : Words8) : List Words16 → Words8
  | [] => seed
  | M :: Ms => chain (compress seed M) Ms

/-- The inverse of a round, for fixed `k` and `w` (R103). -/
def roundInverse (v : Words8) (k w : Word) : Words8 :=
  let t2 := Sigma0 v[1] + Maj v[1] v[2] v[3]
  let t1 := v[0] - t2
  #v[v[1], v[2], v[3], v[4] - t1, v[5], v[6], v[7], t1 - k - Sigma1 v[5] - Ch v[5] v[6] v[7] - w]

/-- Block `j` of a stream of Words: Words `16j` to `16j + 15` (R42, R117); Words not there yet read 0. -/
def blockAt (ws : List Word) (j : Nat) : Words16 :=
  let at' (i : Nat) : Word := ws.getD (16 * j + i) 0#32
  #v[at' 0, at' 1, at' 2, at' 3, at' 4, at' 5, at' 6, at' 7,
     at' 8, at' 9, at' 10, at' 11, at' 12, at' 13, at' 14, at' 15]

/-- The first `n` blocks of a stream of Words. -/
def blocksOf (ws : List Word) (n : Nat) : List Words16 := (List.range n).map (blockAt ws)

/-- The `case S.STATE of` of R140: the internal operation of a step, with the transfer it makes. -/
def rule140Internal (s : State) (p : Config.Pins) : State :=
  match s.STATE with
  | .idle => s
  | .done => s
  | .failed => s
  | .awaitingBlock =>
    if s.NREM ≠ 0#32 then { s with V := s.H, WIN := Vector.replicate 16 0#32, T := 0#6, STATE := .expandingSchedule }
    else if p.outReady then { (s.record (.digest (pack8 s.H))).zeroData with STATE := .done, ERR := .none }
    else s
  | .expandingSchedule =>
    if s.T.toNat < 16 then
      if p.inValid then { s.record (.word p.inData) with WIN := shiftIn s.WIN p.inData, STATE := .compressing }
      else if p.inEos then { s.zeroData with STATE := .failed, ERR := .inputUnderrun }
      else s
    else
      { s with
        WIN := shiftIn s.WIN (sigma1 s.WIN[14] + s.WIN[9] + sigma0 s.WIN[1] + s.WIN[0])
        STATE := .compressing }
  | .compressing =>
    if s.T = 63#6 then { s with V := roundOf s.V (K s.T) s.WIN[15], STATE := .folding }
    else { s with V := roundOf s.V (K s.T) s.WIN[15], T := s.T + 1#6, STATE := .expandingSchedule }
  | .folding => { s with H := add8 s.H s.V, NREM := s.NREM - 1#32, STATE := .awaitingBlock }

/-- The step function as R140 writes it, on the state before the step and its port values. A command that is taken is
recorded as the CMD transfer of R45. -/
def rule140 (s : State) (p : Config.Pins) : State :=
  if p.rst then { s.zeroData with STATE := .idle, ERR := .none }
  else
    let s' := if p.cmdValid && s.cmdReady (cmdOp p.cmdWord) then s.record (.command p.cmdWord) else s
    if p.cmdValid ∧ cmdOp p.cmdWord = opCancel then
      if s.busy then { s'.zeroData with STATE := .failed, ERR := .cancelled } else s'
    else if p.cmdValid ∧ cmdOp p.cmdWord = opStart ∧ ¬ s.busy then
      { s'.zeroData with H := IV, NREM := cmdNblocks p.cmdWord, STATE := .awaitingBlock, ERR := .none }
    else if p.cmdValid ∧ cmdOp p.cmdWord = opStartSeeded ∧ ¬ s.busy then
      { s'.zeroData with
        H := words8 (cmdSeed p.cmdWord), NREM := cmdNblocks p.cmdWord, STATE := .awaitingBlock, ERR := .none }
    else rule140Internal s' p

end Sys2Proof.Machine
end

