-- ==== Sys2Proof/WellFormed.lean ====
section
/-!
DEFINITION. Well-formed operations. Every command word is legal (R68), and every operand field has exactly the width
of its bits, so the only check is on the free bits of a dispatch key: a well-formed operation's key is one that a
state meeting the invariants of 10_state.md R36 can form (DEDUCED, log 14). Neither the decoder nor the step uses
this check: a key outside it decodes and runs as R71 says.
-/
namespace Sys2Proof

/-- The key bits agree with R36: `NREM` is not 0 within a block (item 3), `T` is 63 in Folding (item 4), and both
counters are 0 in Idle, Done and Failed (item 2). -/
def Instr.wellFormed : Instr → Bool
  | .reset => true
  | .nop _ _ => true
  | .start _ _ => true
  | .startSeeded _ _ => true
  | .cancel _ _ => true
  | .beginBlock _ _ _ _ => true
  | .finish _ _ _ => true
  | .waitOut _ _ _ => true
  | .schedLoad nz _ _ => nz
  | .underrun nz _ => nz
  | .waitIn nz _ => nz
  | .schedExpand nz _ _ _ => nz
  | .round nz _ _ _ _ => nz
  | .fold nz lo _ _ _ => nz && !lo
  | .holdIdle nz lo _ _ _ => !nz && lo
  | .holdDone nz lo _ _ _ => !nz && lo
  | .holdFailed nz lo _ _ _ => !nz && lo

end Sys2Proof
end

