-- ==== Sys2Proof/Safety.lean ====
section
/-!
DEFINITION. What a good state is: the invariants of 10_state.md R36, the tie of the registers to the Words taken and
the digests given (R36 item 6, R87, R106, R115, R117), and a measure of the work left (R133).
-/
namespace Sys2Proof.Machine

/-- `H`, `V`, `WIN` all zero, `T` and `NREM` 0 (R36 item 2). -/
abbrev State.Cleared (s : State) : Prop :=
  s.H = Vector.replicate 8 0#32 ∧ s.V = Vector.replicate 8 0#32 ∧ s.WIN = Vector.replicate 16 0#32 ∧
  s.T = 0#6 ∧ s.NREM = 0#32

/-- Items 1 to 4 of R36. Item 7 holds of every State by its type. -/
structure State.Inv (s : State) : Prop where
  /-- item 1 -/
  err_iff_failed : s.ERR ≠ .none ↔ s.STATE = .failed
  /-- item 2 -/
  rest_cleared : s.busy = false → s.Cleared
  /-- item 3 -/
  in_block_nrem : s.STATE = .expandingSchedule ∨ s.STATE = .compressing ∨ s.STATE = .folding → s.NREM ≠ 0#32
  /-- item 4 -/
  folding_t : s.STATE = .folding → s.T = 63#6
  /-- item 4 -/
  awaiting_t : s.STATE = .awaitingBlock → s.T = 0#6 ∨ s.T = 63#6

/-- A computation as its transfers show it: the seed and the Block Count of the START that began it, the Words taken
and the digests given since. -/
structure Run where
  seed : Words8
  count : BlockCount
  words : List Word
  digests : List Digest
deriving DecidableEq, Repr

/-- One more transfer. A START or START_SEEDED begins a computation; other commands change nothing. -/
def Run.extend (r : Option Run) (e : Event) : Option Run :=
  match e with
  | .command w =>
    if cmdOp w = opStart then some ⟨IV, cmdNblocks w, [], []⟩
    else if cmdOp w = opStartSeeded then some ⟨words8 (cmdSeed w), cmdNblocks w, [], []⟩
    else r
  | .word x => r.map (fun q => { q with words := q.words ++ [x] })
  | .digest d => r.map (fun q => { q with digests := q.digests ++ [d] })

/-- The computation a trace ends in, if any began. -/
def currentRun (tr : List Event) : Option Run := tr.foldl Run.extend none

/-- How many blocks of the computation are folded. -/
def blocksFolded (r : Run) (s : State) : Nat := r.count.toNat - s.NREM.toNat

/-- The block being taken: the sixteen Words after those of the folded blocks. -/
def openBlock (r : Run) (s : State) : Words16 := blockAt r.words (blocksFolded r s)

/-- The window holds the schedule Words of `M` up to `W[last - 1]` (R87): `WIN[i] = W[last - 16 + i]` wherever that
index is not negative. -/
def windowHolds (win : Words16) (M : Words16) (last : Nat) : Prop :=
  ∀ i : Fin 16, 16 ≤ last + i → win[i] = sched M (last + i - 16)

/-- What the registers of a busy CORE hold, given the computation `r` of its trace: `H` is the chain over the folded
blocks (R115, R117), no digest has been given (R51), the Words taken are those the phase has asked for (R55), and
within a block `V` and `WIN` are as R106 and R87 say. -/
structure State.BusyWith (s : State) (r : Run) : Prop where
  no_digest : r.digests = []
  count_bound : s.NREM.toNat ≤ r.count.toNat
  chained : s.H = chain r.seed (blocksOf r.words (blocksFolded r s))
  awaiting : s.STATE = .awaitingBlock → r.words.length = 16 * blocksFolded r s
  expanding : s.STATE = .expandingSchedule →
    r.words.length = 16 * blocksFolded r s + min s.T.toNat 16 ∧
    s.V = roundsTo s.H (openBlock r s) s.T.toNat ∧ windowHolds s.WIN (openBlock r s) s.T.toNat
  compressing : s.STATE = .compressing →
    r.words.length = 16 * blocksFolded r s + min (s.T.toNat + 1) 16 ∧
    s.V = roundsTo s.H (openBlock r s) s.T.toNat ∧ windowHolds s.WIN (openBlock r s) (s.T.toNat + 1)
  folding : s.STATE = .folding →
    r.words.length = 16 * (blocksFolded r s + 1) ∧ s.V = rounds64 s.H (openBlock r s)

/-- The computation has ended with its digest: exactly `16 * count` Words were taken, and exactly one digest was given,
the chain over their blocks (R117, R143). -/
structure Run.Completed (r : Run) : Prop where
  words_taken : r.words.length = 16 * r.count.toNat
  digest_given : r.digests = [pack8 (chain r.seed (blocksOf r.words r.count.toNat))]

/-- The registers agree with the transfers of the current computation. -/
def State.Faithful (s : State) : Prop :=
  match s.STATE with
  | .idle => True
  | .done => ∃ r, currentRun s.trace = some r ∧ r.Completed
  | .failed => ∀ r, currentRun s.trace = some r → r.digests = []
  | .awaitingBlock => ∃ r, currentRun s.trace = some r ∧ s.BusyWith r
  | .expandingSchedule => ∃ r, currentRun s.trace = some r ∧ s.BusyWith r
  | .compressing => ∃ r, currentRun s.trace = some r ∧ s.BusyWith r
  | .folding => ∃ r, currentRun s.trace = some r ∧ s.BusyWith r

/-- How many state-changing internal operations are left until Done (R133): 130 for each block to come, one FINISH. -/
def State.workLeft (s : State) : Nat :=
  match s.STATE with
  | .idle => 0
  | .done => 0
  | .failed => 0
  | .awaitingBlock => 130 * s.NREM.toNat + 1
  | .expandingSchedule => 130 * (s.NREM.toNat - 1) + 1 + (1 + 2 * (64 - s.T.toNat))
  | .compressing => 130 * (s.NREM.toNat - 1) + 1 + (2 * (64 - s.T.toNat))
  | .folding => 130 * (s.NREM.toNat - 1) + 1 + 1

/-- The step is one of the two waits for a collaborator (R52): WAIT_IN or WAIT_OUT would be selected. -/
def State.suspended (s : State) : Bool :=
  (s.inReady && !s.pins.inValid && !s.pins.inEos) || (s.outValid && !s.pins.outReady)

/-- Two states with the same registers (R20), whatever their environment and trace. -/
def SameRegisters (s t : State) : Prop :=
  t.H = s.H ∧ t.V = s.V ∧ t.WIN = s.WIN ∧ t.T = s.T ∧ t.NREM = s.NREM ∧ t.STATE = s.STATE ∧ t.ERR = s.ERR

/-- Neither RESET nor a CANCEL is presented in this step: the internal operation is not replaced while busy (R70). -/
def State.undisturbed (s : State) : Prop := s.pins.rst = false ∧ s.cancelOffered = false

/-- The step from `s` completes, makes the effect `E`, and the environment goes on to its next port values. -/
def StepMakes (E : State → State → Prop) (s : State) : Prop :=
  ∃ t, step s = .next t ∧ E s t ∧ t.script = s.script.tail ∧ t.tick = s.tick + 1

/-- `n` steps. -/
def steps : Nat → State → Host.Outcome State Fault Refusal
  | 0, s => .next s
  | n + 1, s => andThen (step s) (steps n)

/-- Port values that do not disturb a computation. -/
def PinsUndisturbed (p : Config.Pins) : Prop := p.rst = false ∧ ¬ (p.cmdValid = true ∧ cmdOp p.cmdWord = opCancel)

/-- The next 130 port values disturb nothing and offer the Words of `M` in the steps of a block that take them: step 0
is BEGIN_BLOCK, step `1 + 2t` the schedule step of round `t` (95_test_vectors.md, program P1). -/
structure SuppliesBlock (env : List Config.Pins) (M : Words16) : Prop where
  enough : 130 ≤ env.length
  undisturbed : ∀ p ∈ env.take 130, PinsUndisturbed p
  words : ∀ t : Fin 16, ∃ p, env[1 + 2 * t.val]? = some p ∧ p.inValid = true ∧ p.inData = M[t]

/-- The port values supply the blocks one after the other. -/
def SuppliesBlocks : List Config.Pins → List Words16 → Prop
  | _, [] => True
  | env, M :: Ms => SuppliesBlock env M ∧ SuppliesBlocks (env.drop 130) Ms

/-- Two sets of port values agree on everything the CORE looks at in state `s` (R41, R43): the payload of a channel
counts only with its `valid`, IN only while `in_ready`, `in_eos` only without a Word, `out_ready` only while
`out_valid`, and nothing but `rst` while it is 1. -/
def SameSeen (s : State) (p q : Config.Pins) : Prop :=
  p.rst = q.rst ∧
  (p.rst = false →
    p.cmdValid = q.cmdValid ∧ (p.cmdValid = true → p.cmdWord = q.cmdWord) ∧
    (s.inReady = true → p.inValid = q.inValid ∧ (p.inValid = true → p.inData = q.inData) ∧
      (p.inValid = false → p.inEos = q.inEos)) ∧
    (s.outValid = true → p.outReady = q.outReady))

end Sys2Proof.Machine
end

