-- ==== Sys2Proof/Certificates/Slice0/Obligations.lean ====
section
/-!
DEFINITION. The statements for the provers. Each docstring names the rule of spec/ it formalises.
-/
open Sys2Proof Sys2Proof.Machine

/-! ### Encoding -/

/-- R61, R65, R66, R75: every operation's word decodes to it, with every operand bit at every value. -/
def Obligations.DecodeOfEncode : Prop := ∀ i : Instr, decode (encode i) = .ok i

/-- R66, R71: a word that decodes to an operation is that operation's word; no word has two meanings and no bit of a
word is dropped. -/
def Obligations.EncodeOfDecode : Prop := ∀ (o : OpWord) (i : Instr), decode o = .ok i → encode i = o

/-- R71: exactly one STEP row matches each key from 0x00 to 0xDF, none a key above, which the decoder refuses by name. -/
def Obligations.StepRowsDisjointAndTotal : Prop :=
  ∀ k : BitVec 8,
    (stepRows.filter (fun r => r.matchesKey k)).length = (if k.toNat ≤ 0xDF then 1 else 0) ∧
    (0xE0 ≤ k.toNat → decode (.step k) = .error (.reservedKey k)) ∧
    (k.toNat ≤ 0xDF → ∃ i, decode (.step k) = .ok i)

/-- 95_test_vectors.md section 7 and programs P2, P3: the spec's own words decode to the operations it names. -/
def Obligations.SpecWordsDecode : Prop :=
  decode (.pin 1#1) = .ok .reset ∧
  decode (.cmd 0x1000000010000000000000000000000000000000000000000000000000000000000000000#290) = .ok (.start 1#32 0#256) ∧
  decode (.cmd 0x20000000185e655d6417a17953363376a624cde5c76e09589cac5f811cc4b32c1f20e533a#290)
    = .ok (.startSeeded 1#32 0x85e655d6417a17953363376a624cde5c76e09589cac5f811cc4b32c1f20e533a#256) ∧
  decode (.cmd 0x3000000000000000000000000000000000000000000000000000000000000000000000000#290) = .ok (.cancel 0#32 0#256) ∧
  decode (.step 0x5B#8) = .ok (.underrun true true) ∧
  decode (.step 0b00101001#8) = .ok (.finish true false false) ∧
  decode (.step 0b00101000#8) = .ok (.waitOut true false false)

/-- R63, R64: the codes of STATE and ERR; the codes of STATE are told apart and 111 is the one reserved. -/
def Obligations.StateAndErrorCodes : Prop :=
  (Phase.idle.code = 0b000#3 ∧ Phase.awaitingBlock.code = 0b001#3 ∧ Phase.expandingSchedule.code = 0b010#3 ∧
    Phase.compressing.code = 0b011#3 ∧ Phase.folding.code = 0b100#3 ∧ Phase.done.code = 0b101#3 ∧
    Phase.failed.code = 0b110#3) ∧
  (ErrCode.none.code = 0b00#2 ∧ ErrCode.inputUnderrun.code = 0b01#2 ∧ ErrCode.blockCountMismatch.code = 0b10#2 ∧
    ErrCode.cancelled.code = 0b11#2) ∧
  (∀ (c : BitVec 3) (ph : Phase), Phase.ofCode c = some ph ↔ ph.code = c) ∧
  (∀ c : BitVec 3, Phase.ofCode c = none ↔ c = 0b111#3) ∧
  (∀ s : State, s.busy = true ↔ s.STATE.code ∈ [0b001#3, 0b010#3, 0b011#3, 0b100#3])

/-- R65: the fields of the dispatch key. -/
def Obligations.DispatchKeyFields : Prop :=
  ∀ s : State,
    s.dispatchKey.extractLsb' 5 3 = s.STATE.code ∧
    s.dispatchKey.getLsbD 4 = decide (s.NREM ≠ 0#32) ∧
    s.dispatchKey.getLsbD 3 = decide (s.T.toNat < 16) ∧
    s.dispatchKey.getLsbD 3 = decide (s.T.extractLsb' 4 2 = 0b00#2) ∧
    s.dispatchKey.getLsbD 2 = s.pins.inValid ∧
    s.dispatchKey.getLsbD 1 = s.pins.inEos ∧
    s.dispatchKey.getLsbD 0 = s.pins.outReady

/-- R36, R65: in a state that meets R36, the operations of the step are well-formed (log 14). -/
def Obligations.SelectedOperationWellFormed : Prop :=
  ∀ (s : State) (n : Option Instr) (i : Instr), s.Inv → selection s = .ok (n, i) →
    i.wellFormed = true ∧ ∀ m, n = some m → m.wellFormed = true

/-- R44, R46, R47, R61: the packing of eight Words, its inverse, and the bytes of a Word and of a digest. -/
def Obligations.DigestPackingAndBytes : Prop :=
  (∀ (x : Words8) (i : Fin 8), (pack8 x).extractLsb' (224 - 32 * i.val) 32 = x[i]) ∧
  (∀ d : Digest, pack8 (words8 d) = d) ∧
  (∀ (x : Words8) (i : Fin 8) (j : Fin 4),
    digestByte (pack8 x) (4 * i.val + j.val) = x[i].extractLsb' (24 - 8 * j.val) 8) ∧
  (∀ b0 b1 b2 b3 : BitVec 8, (wordOfBytes b0 b1 b2 b3).toNat
    = b0.toNat * 2 ^ 24 + b1.toNat * 2 ^ 16 + b2.toNat * 2 ^ 8 + b3.toNat)

/-! ### The step -/

/-- R70: the order of the selection, and that a step is `exec` of the operation the decoder reads, with a NOP accepted
in the same step before it (log 12) and the environment's next port values after it. -/
def Obligations.StepRunsSelectedOperation : Prop :=
  ∀ (s : State) (i : Instr),
    (s.pins.rst = true → decode (.pin 1#1) = .ok i →
      step s = andThen (exec i s) (fun t => .next t.advance)) ∧
    (s.pins.rst = false → s.pins.cmdValid = true → cmdOp s.pins.cmdWord = opCancel →
      decode (.cmd s.pins.cmdWord) = .ok i → step s = andThen (exec i s) (fun t => .next t.advance)) ∧
    (s.pins.rst = false → s.pins.cmdValid = true →
      (cmdOp s.pins.cmdWord = opStart ∨ cmdOp s.pins.cmdWord = opStartSeeded) → s.busy = false →
      decode (.cmd s.pins.cmdWord) = .ok i → step s = andThen (exec i s) (fun t => .next t.advance)) ∧
    (s.pins.rst = false →
      (s.pins.cmdValid = false ∨
        ((cmdOp s.pins.cmdWord = opStart ∨ cmdOp s.pins.cmdWord = opStartSeeded) ∧ s.busy = true)) →
      decode (.step s.dispatchKey) = .ok i → step s = andThen (exec i s) (fun t => .next t.advance)) ∧
    (s.pins.rst = false → s.pins.cmdValid = true → cmdOp s.pins.cmdWord = opNop →
      ∀ m, decode (.cmd s.pins.cmdWord) = .ok m → decode (.step s.dispatchKey) = .ok i →
      step s = andThen (andThen (exec m s) (exec i)) (fun t => .next t.advance))

/-- R126: the step is total: from every state it answers a next state, never a fault or a refusal. -/
def Obligations.StepIsTotal : Prop := ∀ s : State, ∃ t, step s = .next t

/-- R126: the next state does not hang on the record of past transfers (log 3): from two states that differ only in it,
the registers go the same way and the same transfers are added. -/
def Obligations.RecordIsNeverRead : Prop :=
  ∀ (s : State) (tr : List Event), ∃ t u es,
    step s = .next t ∧ step { s with trace := tr } = .next u ∧
    SameRegisters t u ∧ t.script = u.script ∧ t.tick = u.tick ∧ t.trace = s.trace ++ es ∧ u.trace = tr ++ es

/-- R140: the outputs, and the step as the rule writes it, in every state that meets R36 (whose item 1 makes the `ERR` of
FINISH the value it already has). -/
def Obligations.StepIsTheStepFunctionOfTheSpec : Prop :=
  (∀ s : State, s.Inv → step s = .next (rule140 s s.pins).advance) ∧
  (∀ s : State,
    ((outputs s).inReady = true ↔ s.STATE = .expandingSchedule ∧ s.T.toNat < 16) ∧
    ((outputs s).outValid = true ↔ s.STATE = .awaitingBlock ∧ s.NREM = 0#32) ∧
    (outputs s).outData = (if (outputs s).outValid then pack8 s.H else 0#256) ∧
    ((outputs s).cmdReady = true ↔
      cmdOp s.pins.cmdWord = opNop ∨ cmdOp s.pins.cmdWord = opCancel ∨
      ((cmdOp s.pins.cmdWord = opStart ∨ cmdOp s.pins.cmdWord = opStartSeeded) ∧ s.busy = false)) ∧
    (outputs s).stState = s.STATE.code ∧ (outputs s).stErr = s.ERR.code)

/-- R131: command acceptance as a table over the opcode and STATE. -/
def Obligations.CommandAcceptanceTable : Prop :=
  ∀ s : State,
    s.cmdReady opNop = true ∧ s.cmdReady opCancel = true ∧
    (s.STATE = .idle ∨ s.STATE = .done ∨ s.STATE = .failed →
      s.cmdReady opStart = true ∧ s.cmdReady opStartSeeded = true) ∧
    (s.STATE = .awaitingBlock ∨ s.STATE = .expandingSchedule ∨ s.STATE = .compressing ∨ s.STATE = .folding →
      s.cmdReady opStart = false ∧ s.cmdReady opStartSeeded = false)

/-- R41, R49, R70: a step records exactly the transfers its channels make. -/
def Obligations.StepRecordsItsTransfers : Prop :=
  ∀ s t : State, step s = .next t → t.trace = s.trace ++ (transfers s).events

/-- R70: IN transfers exactly when the operation is SCHED_LOAD, OUT exactly when it is FINISH; what is transferred is the
offered Word and the packed Digest State. -/
def Obligations.TransfersFollowTheOperation : Prop :=
  ∀ (s : State) (n : Option Instr) (i : Instr), selection s = .ok (n, i) →
    ((transfers s).inp = some s.pins.inData ↔ ∃ nz ie r, i = .schedLoad nz ie r) ∧
    ((transfers s).inp = none ↔ ¬ ∃ nz ie r, i = .schedLoad nz ie r) ∧
    ((transfers s).out = some (pack8 s.H) ↔ ∃ lo iv ie, i = .finish lo iv ie) ∧
    ((transfers s).out = none ↔ ¬ ∃ lo iv ie, i = .finish lo iv ie) ∧
    ((transfers s).cmd = some s.pins.cmdWord ↔
      s.pins.rst = false ∧ s.pins.cmdValid = true ∧ s.cmdReady (cmdOp s.pins.cmdWord) = true)

/-- R41, R43, R180: what the CORE does not look at in a step does not change the step. -/
def Obligations.UnseenPortValuesHaveNoEffect : Prop :=
  ∀ (s : State) (p q : Config.Pins), SameSeen s p q → step (s.withPins p) = step (s.withPins q)

/-! ### The operations: result, frame and completion of each -/

/-- R170: RESET from any state, whatever else is offered; no transfer happens. -/
def Obligations.ResetClearsEverything : Prop :=
  (∀ s : State, ∃ t, exec .reset s = .next t ∧ ResetEffect t ∧ Moves [] s t) ∧
  (∀ s : State, s.pins.rst = true → StepMakes (fun s t => ResetEffect t ∧ t.trace = s.trace) s)

/-- R130: NOP changes no register, and the step goes as if no command were offered, but for the CMD transfer. -/
def Obligations.NopChangesNothing : Prop :=
  (∀ (n : BlockCount) (seed : BitVec 256) (s : State),
    ∃ t, exec (.nop n seed) s = .next t ∧ SameRegisters s t ∧ Moves [.command (cmdWordOf opNop n seed)] s t) ∧
  (∀ s : State, s.pins.rst = false → s.pins.cmdValid = true → cmdOp s.pins.cmdWord = opNop →
    ∃ t u es, step s = .next t ∧ step (s.withPins { s.pins with cmdValid := false }) = .next u ∧
      SameRegisters u t ∧ t.script = u.script ∧ t.tick = u.tick ∧
      t.trace = s.trace ++ .command s.pins.cmdWord :: es ∧ u.trace = s.trace ++ es)

/-- R127: START with the default seed in Idle, Done and Failed; a busy CORE does not accept it. -/
def Obligations.StartSeedsWithTheDefault : Prop :=
  (∀ (n : BlockCount) (seed : BitVec 256) (s : State), s.busy = false →
    ∃ t, exec (.start n seed) s = .next t ∧ StartEffect (fun i => IV[i]) n t ∧
      Moves [.command (cmdWordOf opStart n seed)] s t) ∧
  (∀ s : State, s.pins.rst = false → s.pins.cmdValid = true → cmdOp s.pins.cmdWord = opStart → s.busy = false →
    StepMakes (fun _ t => StartEffect (fun i => IV[i]) (cmdNblocks s.pins.cmdWord) t) s) ∧
  (∀ (n : BlockCount) (seed : BitVec 256) (s : State), s.busy = true → exec (.start n seed) s = .next s)

/-- R128: START_SEEDED with the caller's seed; with the seed `IV` it does what START does; a busy CORE does
not accept it. -/
def Obligations.StartSeededTakesTheSeed : Prop :=
  (∀ (n : BlockCount) (seed : BitVec 256) (s : State), s.busy = false →
    ∃ t, exec (.startSeeded n seed) s = .next t ∧
      StartEffect (fun i => seed.extractLsb' (224 - 32 * i.val) 32) n t ∧
      Moves [.command (cmdWordOf opStartSeeded n seed)] s t) ∧
  (∀ s : State, s.pins.rst = false → s.pins.cmdValid = true → cmdOp s.pins.cmdWord = opStartSeeded →
    s.busy = false →
    StepMakes (fun _ t => StartEffect (fun i => (cmdSeed s.pins.cmdWord).extractLsb' (224 - 32 * i.val) 32)
      (cmdNblocks s.pins.cmdWord) t) s) ∧
  (∀ (n : BlockCount) (seed : BitVec 256) (s : State), ∃ t u,
    exec (.startSeeded n (pack8 IV)) s = .next t ∧ exec (.start n seed) s = .next u ∧ SameRegisters t u) ∧
  (∀ (n : BlockCount) (seed : BitVec 256) (s : State), s.busy = true → exec (.startSeeded n seed) s = .next s)

/-- R45, R127, R184: START and START_SEEDED offered to a busy CORE are not accepted: no CMD transfer happens, and the step
is the one with no command offered. -/
def Obligations.StartWaitsWhileBusy : Prop :=
  ∀ s : State, s.busy = true → s.pins.rst = false →
    cmdOp s.pins.cmdWord = opStart ∨ cmdOp s.pins.cmdWord = opStartSeeded →
    step s = step (s.withPins { s.pins with cmdValid := false }) ∧ (transfers s).cmd = none

/-- R129, R153, R154: CANCEL raises Cancelled when busy and changes nothing else; accepted in every state. -/
def Obligations.CancelAbandonsTheComputation : Prop :=
  (∀ (n : BlockCount) (seed : BitVec 256) (s : State), s.busy = true →
    ∃ t, exec (.cancel n seed) s = .next t ∧ RaiseEffect .cancelled t ∧
      Moves [.command (cmdWordOf opCancel n seed)] s t) ∧
  (∀ (n : BlockCount) (seed : BitVec 256) (s : State), s.busy = false →
    ∃ t, exec (.cancel n seed) s = .next t ∧ SameRegisters s t ∧ Moves [.command (cmdWordOf opCancel n seed)] s t) ∧
  (∀ s : State, s.pins.rst = false → s.cancelOffered = true →
    StepMakes (fun s t => (if s.busy then RaiseEffect .cancelled t else SameRegisters s t) ∧
      t.trace = s.trace ++ [.command s.pins.cmdWord]) s)

/-- R112: BEGIN_BLOCK. -/
def Obligations.BeginBlockCopiesTheDigestState : Prop :=
  (∀ (lo iv ie r : Bool) (s : State),
    ∃ t, exec (.beginBlock lo iv ie r) s = .next t ∧ BeginBlockEffect s t ∧ Moves [] s t) ∧
  (∀ s : State, s.STATE = .awaitingBlock → s.NREM ≠ 0#32 → s.undisturbed → StepMakes BeginBlockEffect s)

/-- R113, R111: FOLD; `NREM` is not 0 there (R36 item 3), so that it counts down by one without borrow. -/
def Obligations.FoldAddsTheWorkingState : Prop :=
  (∀ (nz lo iv ie r : Bool) (s : State),
    ∃ t, exec (.fold nz lo iv ie r) s = .next t ∧ FoldEffect s t ∧ Moves [] s t) ∧
  (∀ s : State, s.STATE = .folding → s.undisturbed → StepMakes FoldEffect s) ∧
  (∀ s t : State, s.Inv → s.STATE = .folding → FoldEffect s t → t.NREM.toNat + 1 = s.NREM.toNat)

/-- R114: FINISH hands over the Digest State, Word `i` at bits `255-32i` to `224-32i`, and clears everything. A step that
selects it adds exactly that one digest to the trace, after the command word if it accepts one. -/
def Obligations.FinishHandsOverTheDigest : Prop :=
  (∀ (lo iv ie : Bool) (s : State), ∃ t d,
    exec (.finish lo iv ie) s = .next t ∧ FinishEffect s t ∧ Moves [.digest d] s t ∧
    ∀ i : Fin 8, d.extractLsb' (224 - 32 * i.val) 32 = s.H[i]) ∧
  (∀ s : State, s.STATE = .awaitingBlock → s.NREM = 0#32 → s.pins.outReady = true → s.undisturbed →
    (transfers s).inp = none ∧ (transfers s).out = some (pack8 s.H) ∧
    StepMakes (fun s t => FinishEffect s t ∧
      t.trace = s.trace ++ ((transfers s).cmd.map Event.command).toList ++ [.digest (pack8 s.H)]) s)

/-- R85: SCHED_LOAD takes the offered Word. A step that selects it adds exactly that one Word to the trace, after the
command word if it accepts one. -/
def Obligations.SchedLoadTakesTheWord : Prop :=
  (∀ (nz ie r : Bool) (s : State), ∃ t, exec (.schedLoad nz ie r) s = .next t ∧
    ScheduleEffect s.pins.inData s t ∧ Moves [.word s.pins.inData] s t) ∧
  (∀ s : State, s.STATE = .expandingSchedule → s.T.toNat < 16 → s.pins.inValid = true → s.undisturbed →
    (transfers s).inp = some s.pins.inData ∧ (transfers s).out = none ∧
    StepMakes (fun s t => ScheduleEffect s.pins.inData s t ∧
      t.trace = s.trace ++ ((transfers s).cmd.map Event.command).toList ++ [.word s.pins.inData]) s)

/-- R86: SCHED_EXPAND, from the window before the shift; it takes nothing and looks at no IN signal. -/
def Obligations.SchedExpandComputesTheWord : Prop :=
  (∀ (nz iv ie r : Bool) (s : State), ∃ t, exec (.schedExpand nz iv ie r) s = .next t ∧
    ScheduleEffect (sigma1 s.WIN[14] + s.WIN[9] + sigma0 s.WIN[1] + s.WIN[0]) s t ∧ Moves [] s t) ∧
  (∀ s : State, s.STATE = .expandingSchedule → 16 ≤ s.T.toNat → s.undisturbed →
    StepMakes (ScheduleEffect (sigma1 s.WIN[14] + s.WIN[9] + sigma0 s.WIN[1] + s.WIN[0])) s ∧ s.inReady = false)

/-- R101: ROUND. -/
def Obligations.RoundTransformsTheWorkingState : Prop :=
  (∀ (nz lo iv ie r : Bool) (s : State),
    ∃ t, exec (.round nz lo iv ie r) s = .next t ∧ RoundEffect (K s.T) s t ∧ Moves [] s t) ∧
  (∀ s : State, s.STATE = .compressing → s.undisturbed → StepMakes (RoundEffect (K s.T)) s)

/-- R151, R154: UNDERRUN raises InputUnderrun, transfers nothing on IN and OUT, and is selected exactly where a Word is
needed and the source has ended. -/
def Obligations.UnderrunRaisesInputUnderrun : Prop :=
  (∀ (nz r : Bool) (s : State),
    ∃ t, exec (.underrun nz r) s = .next t ∧ RaiseEffect .inputUnderrun t ∧ Moves [] s t) ∧
  (∀ s : State, s.STATE = .expandingSchedule → s.T.toNat < 16 → s.pins.inValid = false → s.pins.inEos = true →
    s.undisturbed → StepMakes (fun _ t => RaiseEffect .inputUnderrun t) s ∧
      (transfers s).inp = none ∧ (transfers s).out = none)

/-- R52, R136, R137, R138: the holds change nothing; the two suspension points keep offering what they offered. -/
def Obligations.HoldsChangeNothing : Prop :=
  (∀ (b1 b2 b3 b4 b5 : Bool) (s : State),
    exec (.waitIn b1 b2) s = .next s ∧ exec (.waitOut b1 b2 b3) s = .next s ∧
    exec (.holdIdle b1 b2 b3 b4 b5) s = .next s ∧ exec (.holdDone b1 b2 b3 b4 b5) s = .next s ∧
    exec (.holdFailed b1 b2 b3 b4 b5) s = .next s) ∧
  (∀ s : State, s.STATE = .expandingSchedule → s.T.toNat < 16 → s.pins.inValid = false → s.pins.inEos = false →
    s.undisturbed → StepMakes (fun s t => SameRegisters s t ∧ t.inReady = true) s) ∧
  (∀ s : State, s.STATE = .awaitingBlock → s.NREM = 0#32 → s.pins.outReady = false → s.undisturbed →
    StepMakes (fun s t => SameRegisters s t ∧ t.outValid = true ∧ t.outData = pack8 s.H) s) ∧
  (∀ s : State, s.busy = false → s.pins.rst = false → s.startAccepted = false →
    StepMakes (fun s t => SameRegisters s t ∧ t.inReady = false ∧ t.outValid = false) s)

/-! ### Rules of the whole machine -/

/-- R35, R171: the state after RESET, and that it meets the invariants. -/
def Obligations.ResetStateMeetsTheInvariants : Prop :=
  ResetEffect State.reset ∧ State.reset.Inv ∧ State.reset.Faithful

/-- R36 items 1 to 4: every step keeps them. -/
def Obligations.StepKeepsTheStateInvariants : Prop :=
  ∀ s t : State, s.Inv → step s = .next t → t.Inv

/-- R36 item 6, R55, R87, R106, R115: every step keeps the tie between the registers and the Words taken. -/
def Obligations.StepKeepsRegistersFaithful : Prop :=
  ∀ s t : State, s.Inv → s.Faithful → step s = .next t → t.Faithful

/-- R117, R143: a digest is handed over only when exactly `16 * N` Words were taken since the START, no digest was given
before in this computation, and its value is the chain over their blocks from the seed. -/
def Obligations.DigestIsTheChainOfTheWordsTaken : Prop :=
  ∀ (s t : State) (d : Digest), s.Inv → s.Faithful → step s = .next t → (transfers s).out = some d →
    t.STATE = .done ∧ ∃ r, currentRun s.trace = some r ∧ r.digests = [] ∧
      r.words.length = 16 * r.count.toNat ∧ d = pack8 (chain r.seed (blocksOf r.words r.count.toNat))

/-- R36, R117: after any number of steps from RESET, under any port values, the machine is in a state that meets the
invariants and is faithful to the Words taken; it has not stopped. -/
def Obligations.EveryReachableStateIsFaithful : Prop :=
  ∀ (n : Nat) (env : List Config.Pins), ∃ t,
    steps n { State.reset with script := env } = .next t ∧ t.Inv ∧ t.Faithful

/-- R133, R141: in a busy state that meets R36, a step that is not one of the two waits and is not disturbed either fails
for want of input or leaves one operation less to do; a hold leaves as many; and a START with count `n` begins `130 n + 1`
further operations. The operations counted are those of the spec's step granularity (D10, log 22). -/
def Obligations.EveryUndisturbedStepMakesProgress : Prop :=
  (∀ s t : State, s.Inv → s.busy = true → s.undisturbed → s.suspended = false → step s = .next t →
    (t.STATE = .failed ∧ t.ERR = .inputUnderrun) ∨ t.workLeft + 1 = s.workLeft) ∧
  (∀ s t : State, s.busy = true → s.undisturbed → s.suspended = true → step s = .next t →
    t.workLeft = s.workLeft) ∧
  (∀ s t : State, s.pins.rst = false → s.startAccepted = true → step s = .next t →
    t.workLeft = 130 * (cmdNblocks s.pins.cmdWord).toNat + 1) ∧
  (∀ s : State, s.busy = true → 0 < s.workLeft)

/-- R115, R133: a block supplied without a wait is compressed into the Digest State in 130 steps. The number of steps is the
model's choice: it rests on the step granularity of the spec's decision D10 (log 22). -/
def Obligations.SuppliedBlockIsCompressed : Prop :=
  ∀ (s : State) (M : Words16), s.STATE = .awaitingBlock → s.NREM ≠ 0#32 → SuppliesBlock s.script M →
    ∃ t, steps 130 s = .next t ∧ t.STATE = .awaitingBlock ∧ t.NREM = s.NREM - 1#32 ∧ t.H = compress s.H M ∧
      t.ERR = s.ERR ∧ t.script = s.script.drop 130

/-- R117, R133: a START (or START_SEEDED) accepted in any rest state, whose blocks are supplied without a wait and whose
digest is received at once, ends in Done after `130 N + 2` steps, having taken exactly the blocks' Words in order and
given one digest, the chain over them from the seed. The number of steps is the model's choice: it rests on the step
granularity of the spec's decision D10 (log 22). -/
def Obligations.WholeMessageIsHashed : Prop :=
  ∀ (s : State) (p q : Config.Pins) (env : List Config.Pins) (Ms : List Words16) (seed : Words8),
    s.busy = false → s.script = p :: env →
    p.rst = false → p.cmdValid = true →
    (cmdOp p.cmdWord = opStart ∧ seed = IV ∨ cmdOp p.cmdWord = opStartSeeded ∧ seed = words8 (cmdSeed p.cmdWord)) →
    (cmdNblocks p.cmdWord).toNat = Ms.length → SuppliesBlocks env Ms →
    env[130 * Ms.length]? = some q → PinsUndisturbed q → q.outReady = true →
    ∃ t r, steps (130 * Ms.length + 2) s = .next t ∧ t.STATE = .done ∧ t.ERR = .none ∧
      currentRun t.trace = some r ∧ r.seed = seed ∧ r.count = cmdNblocks p.cmdWord ∧
      r.words = Ms.flatMap (fun M => M.toList) ∧ r.digests = [pack8 (chain seed Ms)]

/-- R52, R53: steps in which nothing is offered, at the input suspension point, leave the machine as it was but for the
passing of those steps; what follows is the same computation. -/
def Obligations.PacingDoesNotMatter : Prop :=
  ∀ (s : State) (quiet rest : List Config.Pins), s.inReady = true →
    (∀ p ∈ quiet, p.rst = false ∧ p.cmdValid = false ∧ p.inValid = false ∧ p.inEos = false) →
    ∀ n, steps (quiet.length + n) { s with script := quiet ++ rest } =
      steps n { s with script := rest, tick := s.tick + quiet.length }

/-- R120: in AwaitingBlock nothing but `H` and `NREM` matters for what comes: `V`, `WIN` and `T` change no output and no
transfer of any later step. -/
def Obligations.OnlyDigestStateCrossesBlocks : Prop :=
  ∀ (n : Nat) (s : State) (v : Words8) (w : Words16) (i : BitVec 6), s.STATE = .awaitingBlock →
    ∃ t u, steps n s = .next t ∧ steps n { s with V := v, WIN := w, T := i } = .next u ∧
      outputs t = outputs u ∧ t.trace = u.trace

/-- R156, R70: a CANCEL presented to a busy CORE wins over whatever the dispatch key selects: Cancelled is reported, no
Word is taken and no digest is given, in that step. The order of CANCEL and FINISH is the model's choice: the spec's decision
D8 leaves that tie open with this order as its default (log 16). -/
def Obligations.CancelBeatsTheInternalOperation : Prop :=
  ∀ s t : State, s.busy = true → s.pins.rst = false → s.cancelOffered = true → step s = .next t →
    t.STATE = .failed ∧ t.ERR = .cancelled ∧ (transfers s).inp = none ∧ (transfers s).out = none

/-- R138, R156, R158: Failed keeps its error until a START, START_SEEDED or RESET. -/
def Obligations.FailedKeepsItsError : Prop :=
  ∀ s t : State, s.STATE = .failed → s.pins.rst = false → s.startAccepted = false → step s = .next t →
    t.STATE = .failed ∧ t.ERR = s.ERR

/-- R152: no step writes the code of BlockCountMismatch. -/
def Obligations.BlockCountMismatchIsNeverRaised : Prop :=
  ∀ s t : State, step s = .next t → t.ERR = .blockCountMismatch → s.ERR = .blockCountMismatch

/-- R51, R143, R150: a step into Failed gives no digest, and only two conditions can end a computation in a step. -/
def Obligations.FailureGivesNoDigest : Prop :=
  ∀ s t : State, step s = .next t → s.STATE ≠ .failed → t.STATE = .failed →
    (t.ERR = .inputUnderrun ∨ t.ERR = .cancelled) ∧ (transfers s).out = none ∧ AllZero t

/-- R27: BEGIN_BLOCK sets `T` to 0, ROUND counts it up to 63 and leaves it there, SCHED_LOAD, SCHED_EXPAND and FOLD leave
it as it is. No operation but those that clear it or begin a block takes it anywhere but up by one, so it never wraps. -/
def Obligations.RoundIndexNeverWraps : Prop :=
  ∀ (i : Instr) (s t : State), exec i s = .next t →
    (t.T = s.T ∨
      (t.T = 0#6 ∧
        (i = .reset ∨ (∃ n seed, i = .start n seed) ∨ (∃ n seed, i = .startSeeded n seed) ∨
          (∃ n seed, i = .cancel n seed) ∨ (∃ lo iv ie r, i = .beginBlock lo iv ie r) ∨
          (∃ lo iv ie, i = .finish lo iv ie) ∨ ∃ nz r, i = .underrun nz r)) ∨
      ((∃ nz lo iv ie r, i = .round nz lo iv ie r) ∧ s.T.toNat < 63 ∧ t.T.toNat = s.T.toNat + 1)) ∧
    ((∃ lo iv ie r, i = .beginBlock lo iv ie r) → t.T = 0#6) ∧
    ((∃ nz lo iv ie r, i = .round nz lo iv ie r) →
      (s.T.toNat < 63 → t.T.toNat = s.T.toNat + 1) ∧ (s.T = 63#6 → t.T = 63#6)) ∧
    ((∃ nz ie r, i = .schedLoad nz ie r) ∨ (∃ nz iv ie r, i = .schedExpand nz iv ie r) ∨
      (∃ nz lo iv ie r, i = .fold nz lo iv ie r) → t.T = s.T)

/-- R21, R37: who may change the Digest State, and to what. -/
def Obligations.DigestStateChangesOnlyAtItsPoints : Prop :=
  ∀ (i : Instr) (s t : State), exec i s = .next t → t.H ≠ s.H →
    (∃ n seed, i = .start n seed ∧ s.busy = false ∧ t.H = IV) ∨
    (∃ n seed, i = .startSeeded n seed ∧ s.busy = false ∧ t.H = words8 seed) ∨
    (∃ nz lo iv ie r, i = .fold nz lo iv ie r ∧ t.H = add8 s.H s.V) ∨
    (t.H = Vector.replicate 8 0#32 ∧
      (i = .reset ∨ (∃ n seed, i = .cancel n seed) ∨ (∃ lo iv ie, i = .finish lo iv ie) ∨
        ∃ nz r, i = .underrun nz r))

/-! ### The functions of the data path -/

/-- R81, R82, R83, R96, R97: bit `i` of each mixing function is the exclusive or of the bits the rotations and shifts
bring there; the schedule's two are linear over exclusive or. -/
def Obligations.MixingFunctionsBitByBit : Prop :=
  (∀ (x : Word) (i : Fin 32),
    (sigma0 x).getLsbD i.val = ((x.getLsbD ((i.val + 7) % 32) ^^ x.getLsbD ((i.val + 18) % 32)) ^^
      (decide (i.val + 3 ≤ 31) && x.getLsbD (i.val + 3))) ∧
    (sigma1 x).getLsbD i.val = ((x.getLsbD ((i.val + 17) % 32) ^^ x.getLsbD ((i.val + 19) % 32)) ^^
      (decide (i.val + 10 ≤ 31) && x.getLsbD (i.val + 10))) ∧
    (Sigma0 x).getLsbD i.val = ((x.getLsbD ((i.val + 2) % 32) ^^ x.getLsbD ((i.val + 13) % 32)) ^^ x.getLsbD ((i.val + 22) % 32)) ∧
    (Sigma1 x).getLsbD i.val = ((x.getLsbD ((i.val + 6) % 32) ^^ x.getLsbD ((i.val + 11) % 32)) ^^ x.getLsbD ((i.val + 25) % 32))) ∧
  (∀ x y : Word, sigma0 (x ^^^ y) = sigma0 x ^^^ sigma0 y ∧ sigma1 (x ^^^ y) = sigma1 x ^^^ sigma1 y) ∧
  sigma0 0#32 = 0#32 ∧ sigma1 0#32 = 0#32

/-- R99, R100: bit by bit `Ch` selects and `Maj` is the majority; their other forms. -/
def Obligations.ChooseAndMajority : Prop :=
  (∀ (x y z : Word) (i : Fin 32),
    (Ch x y z).getLsbD i.val = (if x.getLsbD i.val then y.getLsbD i.val else z.getLsbD i.val) ∧
    (Maj x y z).getLsbD i.val =
      decide (2 ≤ (x.getLsbD i.val).toNat + (y.getLsbD i.val).toNat + (z.getLsbD i.val).toNat)) ∧
  (∀ x y z : Word,
    Ch x y z = z ^^^ (x &&& (y ^^^ z)) ∧ Ch x y z = (x &&& y) ||| (~~~x &&& z) ∧
    Ch x y z = (x &&& y) + (~~~x &&& z) ∧
    Maj x y z = (x &&& y) ||| (x &&& z) ||| (y &&& z) ∧ Maj x y z = (x &&& y) ^^^ (z &&& (x ^^^ y)) ∧
    Maj x y z = Maj y x z ∧ Maj x y z = Maj x z y)

/-- R103: for fixed `k` and `w` the round is a bijection on Working States, with the rule's inverse. -/
def Obligations.RoundIsInvertible : Prop :=
  ∀ (v : Words8) (k w : Word),
    roundInverse (roundOf v k w) k w = v ∧ roundOf (roundInverse v k w) k w = v

/-- R102, R104: the round reads `k` and `w` only through their sum, and it has the rule's fixed points. -/
def Obligations.RoundSumAndFixedPoints : Prop :=
  (∀ (v : Words8) (k w k' w' : Word), k + w = k' + w' → roundOf v k w = roundOf v k' w') ∧
  (∀ x k w : Word, k + w = - Sigma0 x - Sigma1 (x - Sigma0 x) - 2 * (x - Sigma0 x) →
    roundOf #v[x, x, x, x, x - Sigma0 x, x - Sigma0 x, x - Sigma0 x, x - Sigma0 x] k w
      = #v[x, x, x, x, x - Sigma0 x, x - Sigma0 x, x - Sigma0 x, x - Sigma0 x])

/-- R89, R90: the schedule is the block's Words and then the recurrence; a zero block gives the zero schedule; `W[16]`
depends on four Words only. -/
def Obligations.ScheduleRecurrence : Prop :=
  (∀ (M : Words16) (t : Fin 16), sched M t = M[t]) ∧
  (∀ (M : Words16) (t : Nat), 16 ≤ t → t ≤ 63 →
    sched M t = sigma1 (sched M (t - 2)) + sched M (t - 7) + sigma0 (sched M (t - 15)) + sched M (t - 16)) ∧
  (∀ t : Nat, t ≤ 63 → sched (Vector.replicate 16 0#32) t = 0#32) ∧
  (∀ M N : Words16, M[0] = N[0] → M[1] = N[1] → M[9] = N[9] → M[14] = N[14] → sched M 16 = sched N 16)

/-- R116, R119: the chain is a left fold, and may be split anywhere: the digest of the first part is the seed of the
second. -/
def Obligations.ChainSplitsAnywhere : Prop :=
  (∀ (seed : Words8) (xs ys : List Words16), chain seed (xs ++ ys) = chain (chain seed xs) ys) ∧
  (∀ (seed : Words8) (xs : List Words16), chain seed xs = xs.foldl compress seed)

/-- R22, R98: the tables are the first 32 bits of the fractional parts of the square roots of the first eight primes and
of the cube roots of the first 64. -/
def Obligations.TablesAreRootsOfPrimes : Prop :=
  let primes := (List.range 312).filter (fun n => decide (1 < n) && (List.range n).all (fun d => d < 2 || n % d != 0))
  primes.length = 64 ∧
  (∀ i : Fin 8, ∃ c ∈ List.range 5,
    (c * 2 ^ 32 + IV[i].toNat) ^ 2 ≤ primes.getD i 0 * 2 ^ 64 ∧
    primes.getD i 0 * 2 ^ 64 < (c * 2 ^ 32 + IV[i].toNat + 1) ^ 2) ∧
  (∀ i : Fin 64, ∃ c ∈ List.range 7,
    (c * 2 ^ 32 + (K (BitVec.ofFin i)).toNat) ^ 3 ≤ primes.getD i 0 * 2 ^ 96 ∧
    primes.getD i 0 * 2 ^ 96 < (c * 2 ^ 32 + (K (BitVec.ofFin i)).toNat + 1) ^ 3)

/-! ### The trace notation -/

/-- R74, 95_test_vectors.md section 1: the padded message is a whole number of blocks, and its first bytes are the message
and 0x80; HASH is a START, the sixteen PUSH lines of each block, EOS and POP, and where the number of blocks fits the Block
Count, below `2 ^ 32`, it is the count of that START. The padding rule is general knowledge in the spec (log 19), and the
bound is that of the model's Block Count width (log 5). -/
def Obligations.PaddedMessageFillsItsBlocks : Prop :=
  ∀ m : List (BitVec 8),
    (padBytes m).length = 64 * messageBlocks m ∧ m <+: padBytes m ∧ (padBytes m)[m.length]? = some 0x80#8 ∧
    (messageLines m).length = 16 * messageBlocks m ∧
    ∃ n : BlockCount, hashLines m = .start n :: messageLines m ++ [.eos, .pop] ∧
      (messageBlocks m < 2 ^ 32 → n.toNat = messageBlocks m)
end

