-- ==== Sys2Proof/Laws/Bits.lean ====
section
/-!
SUPPORT. Slices of concatenated bit vectors, at the widths the caller gives.
-/
namespace Sys2Proof.Laws

theorem append_low {a b : Nat} (x : BitVec a) (y : BitVec b) : (x ++ y).extractLsb' 0 b = y := by
  ext i hi
  simp [BitVec.getLsbD_append, hi]

theorem append_skip {a b : Nat} (x : BitVec a) (y : BitVec b) (k n : Nat) :
    (x ++ y).extractLsb' (b + k) n = x.extractLsb' k n := by
  ext i hi
  have h1 : ¬ b + k + i < b := by omega
  have h2 : b + k + i - b = k + i := by omega
  simp [BitVec.getLsbD_append, h1, h2]

theorem append3_high {a b c : Nat} (x : BitVec a) (y : BitVec b) (z : BitVec c) :
    (x ++ y ++ z).extractLsb' (b + c) a = x := by
  rw [Nat.add_comm b c, append_skip]
  simpa using append_skip x y 0 a

theorem append3_mid {a b c : Nat} (x : BitVec a) (y : BitVec b) (z : BitVec c) :
    (x ++ y ++ z).extractLsb' c b = y :=
  (append_skip (x ++ y) z 0 b).trans (append_low x y)

theorem append3_eta {a b c : Nat} (w : BitVec (a + b + c)) :
    w.extractLsb' (b + c) a ++ w.extractLsb' c b ++ w.extractLsb' 0 c = w := by
  ext i hi
  simp only [BitVec.getElem_append, BitVec.getElem_extractLsb']
  split
  · simp [BitVec.getLsbD_eq_getElem hi]
  · split <;> (rw [← BitVec.getLsbD_eq_getElem hi]; congr 1; omega)

end Sys2Proof.Laws
end

