-- ==== Sys2Proof/Laws/Decode.lean ====
section
/-!
SUPPORT. What the decoder answers for a dispatch key of each controller state, and for each opcode of a command word.
-/
namespace Sys2Proof.Machine

theorem decodeKey_idle (nz lo iv ie r : Bool) :
    decodeKey (keyOf Phase.idle.code nz lo iv ie r) = .ok (.holdIdle nz lo iv ie r) := by
  cases nz <;> cases lo <;> cases iv <;> cases ie <;> cases r <;> rfl

theorem decodeKey_done (nz lo iv ie r : Bool) :
    decodeKey (keyOf Phase.done.code nz lo iv ie r) = .ok (.holdDone nz lo iv ie r) := by
  cases nz <;> cases lo <;> cases iv <;> cases ie <;> cases r <;> rfl

theorem decodeKey_failed (nz lo iv ie r : Bool) :
    decodeKey (keyOf Phase.failed.code nz lo iv ie r) = .ok (.holdFailed nz lo iv ie r) := by
  cases nz <;> cases lo <;> cases iv <;> cases ie <;> cases r <;> rfl

theorem decodeKey_folding (nz lo iv ie r : Bool) :
    decodeKey (keyOf Phase.folding.code nz lo iv ie r) = .ok (.fold nz lo iv ie r) := by
  cases nz <;> cases lo <;> cases iv <;> cases ie <;> cases r <;> rfl

theorem decodeKey_compressing (nz lo iv ie r : Bool) :
    decodeKey (keyOf Phase.compressing.code nz lo iv ie r) = .ok (.round nz lo iv ie r) := by
  cases nz <;> cases lo <;> cases iv <;> cases ie <;> cases r <;> rfl

theorem decodeKey_awaitingBlock (nz lo iv ie r : Bool) :
    decodeKey (keyOf Phase.awaitingBlock.code nz lo iv ie r) =
      .ok (if nz then .beginBlock lo iv ie r else if r then .finish lo iv ie else .waitOut lo iv ie) := by
  cases nz <;> cases lo <;> cases iv <;> cases ie <;> cases r <;> rfl

theorem decodeKey_expandingSchedule (nz lo iv ie r : Bool) :
    decodeKey (keyOf Phase.expandingSchedule.code nz lo iv ie r) =
      .ok (if lo then (if iv then .schedLoad nz ie r else if ie then .underrun nz r else .waitIn nz r)
        else .schedExpand nz iv ie r) := by
  cases nz <;> cases lo <;> cases iv <;> cases ie <;> cases r <;> rfl

@[simp] theorem cmdOp_cmdWordOf (op : BitVec 2) (n : BlockCount) (seed : BitVec 256) :
    cmdOp (cmdWordOf op n seed) = op := Laws.append3_high op n seed

@[simp] theorem cmdNblocks_cmdWordOf (op : BitVec 2) (n : BlockCount) (seed : BitVec 256) :
    cmdNblocks (cmdWordOf op n seed) = n := Laws.append3_mid op n seed

@[simp] theorem cmdSeed_cmdWordOf (op : BitVec 2) (n : BlockCount) (seed : BitVec 256) :
    cmdSeed (cmdWordOf op n seed) = seed := Laws.append_low (op ++ n) seed

theorem cmdWordOf_fields (w : CmdWord) : cmdWordOf (cmdOp w) (cmdNblocks w) (cmdSeed w) = w :=
  Laws.append3_eta (a := 2) (b := 32) (c := 256) w

theorem op_cases (op : BitVec 2) : op = opNop ∨ op = opStart ∨ op = opStartSeeded ∨ op = opCancel := by
  revert op; decide

end Sys2Proof.Machine
end

