-- ==== Sys2Proof/Laws/Functions.lean ====
section
/-!
SUPPORT. Element lemmas of the data-path functions, and the equations of the schedule and the rounds.
-/
namespace Sys2Proof.Machine

theorem shiftIn_get (win : Words16) (w : Word) (i : Fin 15) :
    (shiftIn win w)[i.val]'(by omega) = win[i.val + 1]'(by omega) := by
  fin_cases i <;> rfl

@[simp] theorem shiftIn_last (win : Words16) (w : Word) : (shiftIn win w)[15] = w := rfl

theorem add8_get (x y : Words8) (i : Fin 8) : (add8 x y)[i] = x[i] + y[i] := by
  fin_cases i <;> rfl

theorem words8_eq {x y : Words8} (h : ∀ i : Fin 8, x[i] = y[i]) : x = y :=
  Vector.ext fun i hi => h ⟨i, hi⟩

theorem words16_eq {x y : Words16} (h : ∀ i : Fin 16, x[i] = y[i]) : x = y :=
  Vector.ext fun i hi => h ⟨i, hi⟩

theorem blockAt_get (ws : List Word) (j : Nat) (i : Fin 16) :
    (blockAt ws j)[i] = ws.getD (16 * j + i) 0#32 := by
  fin_cases i <;> rfl

/-- The first sixteen schedule Words are the block's (R89). -/
theorem sched_input (M : Words16) (i : Fin 16) : sched M i = M[i] := by
  fin_cases i <;> rfl

/-- The recurrence of R89. -/
theorem sched_step (M : Words16) (n : Nat) :
    sched M (n + 16) = sigma1 (sched M (n + 14)) + sched M (n + 9) + sigma0 (sched M (n + 1)) + sched M n := by
  rw [sched]

theorem roundsTo_succ (v : Words8) (M : Words16) (t : Nat) :
    roundsTo v M (t + 1) = roundOf (roundsTo v M t) (K (BitVec.ofNat 6 t)) (sched M t) := rfl

/-- The rounds below `t` read the schedule below `t` only. -/
theorem roundsTo_congr (v : Words8) (M M' : Words16) (t : Nat) (h : ∀ j < t, sched M j = sched M' j) :
    roundsTo v M t = roundsTo v M' t := by
  induction t with
  | zero => rfl
  | succ t ih => rw [roundsTo_succ, roundsTo_succ, ih fun j hj => h j (by omega), h t (by omega)]

/-- The packing of R44 and the cutting of R61 are inverse to each other. -/
@[simp] theorem words8_pack8 (x : Words8) : words8 (pack8 x) = x := by
  apply words8_eq
  intro i
  fin_cases i
  · exact (Laws.append_skip _ x[7] 192 32).trans <| (Laws.append_skip _ x[6] 160 32).trans <|
      (Laws.append_skip _ x[5] 128 32).trans <| (Laws.append_skip _ x[4] 96 32).trans <|
      (Laws.append_skip _ x[3] 64 32).trans <| (Laws.append_skip _ x[2] 32 32).trans <|
      (Laws.append_skip x[0] x[1] 0 32).trans BitVec.extractLsb'_eq_self
  · exact (Laws.append_skip _ x[7] 160 32).trans <| (Laws.append_skip _ x[6] 128 32).trans <|
      (Laws.append_skip _ x[5] 96 32).trans <| (Laws.append_skip _ x[4] 64 32).trans <|
      (Laws.append_skip _ x[3] 32 32).trans <| (Laws.append_skip _ x[2] 0 32).trans <| Laws.append_low x[0] x[1]
  · exact (Laws.append_skip _ x[7] 128 32).trans <| (Laws.append_skip _ x[6] 96 32).trans <|
      (Laws.append_skip _ x[5] 64 32).trans <| (Laws.append_skip _ x[4] 32 32).trans <|
      (Laws.append_skip _ x[3] 0 32).trans <| Laws.append_low _ x[2]
  · exact (Laws.append_skip _ x[7] 96 32).trans <| (Laws.append_skip _ x[6] 64 32).trans <|
      (Laws.append_skip _ x[5] 32 32).trans <| (Laws.append_skip _ x[4] 0 32).trans <| Laws.append_low _ x[3]
  · exact (Laws.append_skip _ x[7] 64 32).trans <| (Laws.append_skip _ x[6] 32 32).trans <|
      (Laws.append_skip _ x[5] 0 32).trans <| Laws.append_low _ x[4]
  · exact (Laws.append_skip _ x[7] 32 32).trans <| (Laws.append_skip _ x[6] 0 32).trans <| Laws.append_low _ x[5]
  · exact (Laws.append_skip _ x[7] 0 32).trans <| Laws.append_low _ x[6]
  · exact Laws.append_low _ x[7]

end Sys2Proof.Machine
end

