-- ==== Sys2Proof/Laws/PerInstr.lean ====
section
/-!
SUPPORT. Per operation: its encoding meets the mask and match of its own row in the opcode table (R66, R75).
-/
namespace Sys2Proof.Laws.MatchesRow

/-- The word of `i` has its format, and the fixed bits of the row with its mnemonic. -/
def Statement (i : Instr) : Prop :=
  match encode i with
  | .pin rst => i.mnemonic = "RESET" ∧ rst = 1#1
  | .cmd w =>
    (i.mnemonic, (w.extractLsb' 288 2).toNat) ∈ [("NOP", 0), ("START", 1), ("START_SEEDED", 2), ("CANCEL", 3)]
  | .step k => ∃ r ∈ stepRows, r.mnemonic = i.mnemonic ∧ r.matchesKey k = true

theorem op_of_word (op : BitVec 2) (n : BlockCount) (s : BitVec 256) :
    (cmdWordOf op n s).extractLsb' 288 2 = op := append3_high op n s

theorem reset : Statement .reset := ⟨rfl, rfl⟩
theorem nop (n : BlockCount) (s : BitVec 256) : Statement (.nop n s) := by
  simp [Statement, encode, Instr.mnemonic, op_of_word]
theorem start (n : BlockCount) (s : BitVec 256) : Statement (.start n s) := by
  simp [Statement, encode, Instr.mnemonic, op_of_word]
theorem startSeeded (n : BlockCount) (s : BitVec 256) : Statement (.startSeeded n s) := by
  simp [Statement, encode, Instr.mnemonic, op_of_word]
theorem cancel (n : BlockCount) (s : BitVec 256) : Statement (.cancel n s) := by
  simp [Statement, encode, Instr.mnemonic, op_of_word]
/-- Some row has the mnemonic and matches the key. -/
def rowFor (m : String) (k : BitVec 8) : Bool := stepRows.any (fun r => r.mnemonic == m && r.matchesKey k)

theorem of_rowFor {i : Instr} {k : BitVec 8} (h : encode i = .step k) (hr : rowFor i.mnemonic k = true) :
    Statement i := by
  obtain ⟨r, hm, hk⟩ := List.any_eq_true.mp hr
  obtain ⟨he, hk⟩ := Bool.and_eq_true_iff.mp hk
  simp only [Statement, h]
  exact ⟨r, hm, beq_iff_eq.mp he, hk⟩

theorem beginBlock (lo iv ie r : Bool) : Statement (.beginBlock lo iv ie r) :=
  have h : ∀ lo iv ie r : Bool, rowFor "BEGIN_BLOCK" (keyOf 0b001#3 true lo iv ie r) = true := by decide
  of_rowFor rfl (h lo iv ie r)
theorem finish (lo iv ie : Bool) : Statement (.finish lo iv ie) :=
  have h : ∀ lo iv ie : Bool, rowFor "FINISH" (keyOf 0b001#3 false lo iv ie true) = true := by decide
  of_rowFor rfl (h lo iv ie)
theorem waitOut (lo iv ie : Bool) : Statement (.waitOut lo iv ie) :=
  have h : ∀ lo iv ie : Bool, rowFor "WAIT_OUT" (keyOf 0b001#3 false lo iv ie false) = true := by decide
  of_rowFor rfl (h lo iv ie)
theorem schedLoad (nz ie r : Bool) : Statement (.schedLoad nz ie r) :=
  have h : ∀ nz ie r : Bool, rowFor "SCHED_LOAD" (keyOf 0b010#3 nz true true ie r) = true := by decide
  of_rowFor rfl (h nz ie r)
theorem underrun (nz r : Bool) : Statement (.underrun nz r) :=
  have h : ∀ nz r : Bool, rowFor "UNDERRUN" (keyOf 0b010#3 nz true false true r) = true := by decide
  of_rowFor rfl (h nz r)
theorem waitIn (nz r : Bool) : Statement (.waitIn nz r) :=
  have h : ∀ nz r : Bool, rowFor "WAIT_IN" (keyOf 0b010#3 nz true false false r) = true := by decide
  of_rowFor rfl (h nz r)
theorem schedExpand (nz iv ie r : Bool) : Statement (.schedExpand nz iv ie r) :=
  have h : ∀ nz iv ie r : Bool, rowFor "SCHED_EXPAND" (keyOf 0b010#3 nz false iv ie r) = true := by decide
  of_rowFor rfl (h nz iv ie r)
theorem round (nz lo iv ie r : Bool) : Statement (.round nz lo iv ie r) :=
  have h : ∀ nz lo iv ie r : Bool, rowFor "ROUND" (keyOf 0b011#3 nz lo iv ie r) = true := by decide
  of_rowFor rfl (h nz lo iv ie r)
theorem fold (nz lo iv ie r : Bool) : Statement (.fold nz lo iv ie r) :=
  have h : ∀ nz lo iv ie r : Bool, rowFor "FOLD" (keyOf 0b100#3 nz lo iv ie r) = true := by decide
  of_rowFor rfl (h nz lo iv ie r)
theorem holdIdle (nz lo iv ie r : Bool) : Statement (.holdIdle nz lo iv ie r) :=
  have h : ∀ nz lo iv ie r : Bool, rowFor "HOLD_IDLE" (keyOf 0b000#3 nz lo iv ie r) = true := by decide
  of_rowFor rfl (h nz lo iv ie r)
theorem holdDone (nz lo iv ie r : Bool) : Statement (.holdDone nz lo iv ie r) :=
  have h : ∀ nz lo iv ie r : Bool, rowFor "HOLD_DONE" (keyOf 0b101#3 nz lo iv ie r) = true := by decide
  of_rowFor rfl (h nz lo iv ie r)
theorem holdFailed (nz lo iv ie r : Bool) : Statement (.holdFailed nz lo iv ie r) :=
  have h : ∀ nz lo iv ie r : Bool, rowFor "HOLD_FAILED" (keyOf 0b110#3 nz lo iv ie r) = true := by decide
  of_rowFor rfl (h nz lo iv ie r)

end Sys2Proof.Laws.MatchesRow
end

