-- ==== Sys2Proof/Laws/State.lean ====
section
/-!
SUPPORT. One lemma per field per update of State.
-/
namespace Sys2Proof.Machine

@[simp] theorem zeroData_H (s : State) : s.zeroData.H = Vector.replicate 8 0#32 := rfl
@[simp] theorem zeroData_V (s : State) : s.zeroData.V = Vector.replicate 8 0#32 := rfl
@[simp] theorem zeroData_WIN (s : State) : s.zeroData.WIN = Vector.replicate 16 0#32 := rfl
@[simp] theorem zeroData_T (s : State) : s.zeroData.T = 0#6 := rfl
@[simp] theorem zeroData_NREM (s : State) : s.zeroData.NREM = 0#32 := rfl
@[simp] theorem zeroData_STATE (s : State) : s.zeroData.STATE = s.STATE := rfl
@[simp] theorem zeroData_ERR (s : State) : s.zeroData.ERR = s.ERR := rfl
@[simp] theorem zeroData_script (s : State) : s.zeroData.script = s.script := rfl
@[simp] theorem zeroData_tick (s : State) : s.zeroData.tick = s.tick := rfl
@[simp] theorem zeroData_trace (s : State) : s.zeroData.trace = s.trace := rfl

@[simp] theorem raiseCondition_H (c : ErrCode) (s : State) : (s.raiseCondition c).H = Vector.replicate 8 0#32 := rfl
@[simp] theorem raiseCondition_V (c : ErrCode) (s : State) : (s.raiseCondition c).V = Vector.replicate 8 0#32 := rfl
@[simp] theorem raiseCondition_WIN (c : ErrCode) (s : State) : (s.raiseCondition c).WIN = Vector.replicate 16 0#32 := rfl
@[simp] theorem raiseCondition_T (c : ErrCode) (s : State) : (s.raiseCondition c).T = 0#6 := rfl
@[simp] theorem raiseCondition_NREM (c : ErrCode) (s : State) : (s.raiseCondition c).NREM = 0#32 := rfl
@[simp] theorem raiseCondition_STATE (c : ErrCode) (s : State) : (s.raiseCondition c).STATE = .failed := rfl
@[simp] theorem raiseCondition_ERR (c : ErrCode) (s : State) : (s.raiseCondition c).ERR = c := rfl
@[simp] theorem raiseCondition_script (c : ErrCode) (s : State) : (s.raiseCondition c).script = s.script := rfl
@[simp] theorem raiseCondition_tick (c : ErrCode) (s : State) : (s.raiseCondition c).tick = s.tick := rfl
@[simp] theorem raiseCondition_trace (c : ErrCode) (s : State) : (s.raiseCondition c).trace = s.trace := rfl

@[simp] theorem beginRun_H (h : Words8) (n : BlockCount) (s : State) : (s.beginRun h n).H = h := rfl
@[simp] theorem beginRun_V (h : Words8) (n : BlockCount) (s : State) : (s.beginRun h n).V = Vector.replicate 8 0#32 := rfl
@[simp] theorem beginRun_WIN (h : Words8) (n : BlockCount) (s : State) : (s.beginRun h n).WIN = Vector.replicate 16 0#32 := rfl
@[simp] theorem beginRun_T (h : Words8) (n : BlockCount) (s : State) : (s.beginRun h n).T = 0#6 := rfl
@[simp] theorem beginRun_NREM (h : Words8) (n : BlockCount) (s : State) : (s.beginRun h n).NREM = n := rfl
@[simp] theorem beginRun_STATE (h : Words8) (n : BlockCount) (s : State) : (s.beginRun h n).STATE = .awaitingBlock := rfl
@[simp] theorem beginRun_ERR (h : Words8) (n : BlockCount) (s : State) : (s.beginRun h n).ERR = .none := rfl
@[simp] theorem beginRun_script (h : Words8) (n : BlockCount) (s : State) : (s.beginRun h n).script = s.script := rfl
@[simp] theorem beginRun_tick (h : Words8) (n : BlockCount) (s : State) : (s.beginRun h n).tick = s.tick := rfl
@[simp] theorem beginRun_trace (h : Words8) (n : BlockCount) (s : State) : (s.beginRun h n).trace = s.trace := rfl

@[simp] theorem record_H (e : Event) (s : State) : (s.record e).H = s.H := rfl
@[simp] theorem record_V (e : Event) (s : State) : (s.record e).V = s.V := rfl
@[simp] theorem record_WIN (e : Event) (s : State) : (s.record e).WIN = s.WIN := rfl
@[simp] theorem record_T (e : Event) (s : State) : (s.record e).T = s.T := rfl
@[simp] theorem record_NREM (e : Event) (s : State) : (s.record e).NREM = s.NREM := rfl
@[simp] theorem record_STATE (e : Event) (s : State) : (s.record e).STATE = s.STATE := rfl
@[simp] theorem record_ERR (e : Event) (s : State) : (s.record e).ERR = s.ERR := rfl
@[simp] theorem record_script (e : Event) (s : State) : (s.record e).script = s.script := rfl
@[simp] theorem record_tick (e : Event) (s : State) : (s.record e).tick = s.tick := rfl
@[simp] theorem record_trace (e : Event) (s : State) : (s.record e).trace = s.trace ++ [e] := rfl

@[simp] theorem advance_H (s : State) : s.advance.H = s.H := rfl
@[simp] theorem advance_V (s : State) : s.advance.V = s.V := rfl
@[simp] theorem advance_WIN (s : State) : s.advance.WIN = s.WIN := rfl
@[simp] theorem advance_T (s : State) : s.advance.T = s.T := rfl
@[simp] theorem advance_NREM (s : State) : s.advance.NREM = s.NREM := rfl
@[simp] theorem advance_STATE (s : State) : s.advance.STATE = s.STATE := rfl
@[simp] theorem advance_ERR (s : State) : s.advance.ERR = s.ERR := rfl
@[simp] theorem advance_script (s : State) : s.advance.script = s.script.tail := rfl
@[simp] theorem advance_tick (s : State) : s.advance.tick = s.tick + 1 := rfl
@[simp] theorem advance_trace (s : State) : s.advance.trace = s.trace := rfl

@[simp] theorem withPins_H (p : Config.Pins) (s : State) : (s.withPins p).H = s.H := rfl
@[simp] theorem withPins_V (p : Config.Pins) (s : State) : (s.withPins p).V = s.V := rfl
@[simp] theorem withPins_WIN (p : Config.Pins) (s : State) : (s.withPins p).WIN = s.WIN := rfl
@[simp] theorem withPins_T (p : Config.Pins) (s : State) : (s.withPins p).T = s.T := rfl
@[simp] theorem withPins_NREM (p : Config.Pins) (s : State) : (s.withPins p).NREM = s.NREM := rfl
@[simp] theorem withPins_STATE (p : Config.Pins) (s : State) : (s.withPins p).STATE = s.STATE := rfl
@[simp] theorem withPins_ERR (p : Config.Pins) (s : State) : (s.withPins p).ERR = s.ERR := rfl
@[simp] theorem withPins_script (p : Config.Pins) (s : State) : (s.withPins p).script = p :: s.script.tail := rfl
@[simp] theorem withPins_tick (p : Config.Pins) (s : State) : (s.withPins p).tick = s.tick := rfl
@[simp] theorem withPins_trace (p : Config.Pins) (s : State) : (s.withPins p).trace = s.trace := rfl

@[simp] theorem zeroData_pins (s : State) : s.zeroData.pins = s.pins := rfl
@[simp] theorem raiseCondition_pins (c : ErrCode) (s : State) : (s.raiseCondition c).pins = s.pins := rfl
@[simp] theorem beginRun_pins (h : Words8) (n : BlockCount) (s : State) : (s.beginRun h n).pins = s.pins := rfl
@[simp] theorem record_pins (e : Event) (s : State) : (s.record e).pins = s.pins := rfl
@[simp] theorem withPins_pins (p : Config.Pins) (s : State) : (s.withPins p).pins = p := rfl

theorem pins_cons (s : State) (p : Config.Pins) (rest : List Config.Pins) (h : s.script = p :: rest) :
    s.pins = p := by simp [State.pins, h]

@[simp] theorem andThen_next (s : State) (f : State → Host.Outcome State Fault Refusal) :
    andThen (.next s) f = f s := rfl

end Sys2Proof.Machine
end

