-- ==== Sys2Proof/Laws/Step.lean ====
section
/-!
SUPPORT. What a step that answers a next state has done.
-/
namespace Sys2Proof.Machine

/-- Inversion of `step`: the selection named an operation `i` (and perhaps a NOP), they ran, the environment went on. -/
theorem step_inversion {s t : State} (h : step s = .next t) :
    ∃ n i u v, selection s = .ok (n, i) ∧ execAccepted n s = .next u ∧ exec i u = .next v ∧ t = v.advance := by
  unfold step at h
  split at h
  · rename_i n i hs
    cases hu : execAccepted n s with
    | next u =>
      cases hv : exec i u with
      | next v => exact ⟨n, i, u, v, hs, hu, hv, by simpa [hu, hv, eq_comm] using h⟩
      | fault r => simp [hu, hv, andThen] at h
      | refused r => simp [hu, hv, andThen] at h
    | fault r => simp [hu, andThen] at h
    | refused r => simp [hu, andThen] at h
  · cases h

/-- The state in which the internal operation of a step runs: a NOP accepted in the step is recorded first (log 12). -/
def State.afterNop (s : State) : State :=
  if s.nopOffered then s.record (.command s.pins.cmdWord) else s

theorem afterNop_cases (s : State) :
    s.afterNop = s ∨ (cmdOp s.pins.cmdWord = opNop ∧ s.afterNop = s.record (.command s.pins.cmdWord)) := by
  unfold State.afterNop
  split
  · rename_i h
    simp only [State.nopOffered, Bool.and_eq_true, beq_iff_eq] at h
    exact .inr ⟨h.2, rfl⟩
  · exact .inl rfl

/-- The operation a dispatch key selects, by controller state. -/
theorem decode_dispatchKey (s : State) :
    decode (.step s.dispatchKey) = .ok
      (match s.STATE with
       | .idle => .holdIdle (!s.noBlocksLeft) s.loadRound s.pins.inValid s.pins.inEos s.pins.outReady
       | .awaitingBlock =>
         if !s.noBlocksLeft then .beginBlock s.loadRound s.pins.inValid s.pins.inEos s.pins.outReady
         else if s.pins.outReady then .finish s.loadRound s.pins.inValid s.pins.inEos
         else .waitOut s.loadRound s.pins.inValid s.pins.inEos
       | .expandingSchedule =>
         if s.loadRound then
           (if s.pins.inValid then .schedLoad (!s.noBlocksLeft) s.pins.inEos s.pins.outReady
            else if s.pins.inEos then .underrun (!s.noBlocksLeft) s.pins.outReady
            else .waitIn (!s.noBlocksLeft) s.pins.outReady)
         else .schedExpand (!s.noBlocksLeft) s.pins.inValid s.pins.inEos s.pins.outReady
       | .compressing => .round (!s.noBlocksLeft) s.loadRound s.pins.inValid s.pins.inEos s.pins.outReady
       | .folding => .fold (!s.noBlocksLeft) s.loadRound s.pins.inValid s.pins.inEos s.pins.outReady
       | .done => .holdDone (!s.noBlocksLeft) s.loadRound s.pins.inValid s.pins.inEos s.pins.outReady
       | .failed => .holdFailed (!s.noBlocksLeft) s.loadRound s.pins.inValid s.pins.inEos s.pins.outReady) := by
  unfold State.dispatchKey decode
  cases s.STATE
  · exact decodeKey_idle ..
  · exact decodeKey_awaitingBlock ..
  · exact decodeKey_expandingSchedule ..
  · exact decodeKey_compressing ..
  · exact decodeKey_folding ..
  · exact decodeKey_done ..
  · exact decodeKey_failed ..

/-- A step in which no RESET, no CANCEL and no acceptable START is presented runs the operation of its key. -/
theorem step_internal {s : State} {i : Instr} (hr : s.pins.rst = false) (hc : s.cancelOffered = false)
    (hs : s.startAccepted = false) (hd : decode (.step s.dispatchKey) = .ok i) :
    step s = andThen (exec i s.afterNop) (fun t => .next t.advance) := by
  simp only [step, selection, hr, hc, hs, hd, Bool.or_false, Bool.false_eq_true, if_false]
  cases hn : s.nopOffered with
  | false => simp [execAccepted, State.afterNop, hn]
  | true =>
    have hop : cmdOp s.pins.cmdWord = opNop := by
      simp only [State.nopOffered, Bool.and_eq_true, beq_iff_eq] at hn
      exact hn.2
    have hw : cmdWordOf opNop (cmdNblocks s.pins.cmdWord) (cmdSeed s.pins.cmdWord) = s.pins.cmdWord := by
      rw [← hop]; exact cmdWordOf_fields _
    simp [execAccepted, decodeCmd, hop, exec, execNop, hw, State.afterNop, hn]

end Sys2Proof.Machine
end

