-- ==== Sys2Proof/Tests/Slice0.lean ====
section
/-!
SUPPORT. Small tests, each with its source in spec/, and for each statement with hypotheses a witness that meets them.
-/
namespace Sys2Proof.Tests
open Sys2Proof Sys2Proof.Machine

/-! ### Well-formedness: an ill-formed term for each check -/

theorem test_wf_schedLoad : (Instr.schedLoad false true true).wellFormed = false := by decide
theorem test_wf_underrun : (Instr.underrun false true).wellFormed = false := by decide
theorem test_wf_waitIn : (Instr.waitIn false true).wellFormed = false := by decide
theorem test_wf_schedExpand : (Instr.schedExpand false true true true).wellFormed = false := by decide
theorem test_wf_round : (Instr.round false true true true true).wellFormed = false := by decide
theorem test_wf_fold_nz : (Instr.fold false false true true true).wellFormed = false := by decide
theorem test_wf_fold_lo : (Instr.fold true true true true true).wellFormed = false := by decide
theorem test_wf_holdIdle_nz : (Instr.holdIdle true true false false false).wellFormed = false := by decide
theorem test_wf_holdIdle_lo : (Instr.holdIdle false false false false false).wellFormed = false := by decide
theorem test_wf_holdDone_nz : (Instr.holdDone true true false false false).wellFormed = false := by decide
theorem test_wf_holdDone_lo : (Instr.holdDone false false false false false).wellFormed = false := by decide
theorem test_wf_holdFailed_nz : (Instr.holdFailed true true false false false).wellFormed = false := by decide
theorem test_wf_holdFailed_lo : (Instr.holdFailed false false false false false).wellFormed = false := by decide

/-! ### Decoding: a word written out from R61, R65, R66 for each constructor -/

theorem test_decode_reset : decode (.pin 1#1) = .ok .reset := rfl
theorem test_decode_pin_low : decode (.pin 0#1) = .error .resetNotAsserted := rfl
/-- R61: op 00, the ignored fields kept. -/
theorem test_decode_nop :
    decode (.cmd 0x0000000050000000000000000000000000000000000000000000000000000000000000007#290) = .ok (.nop 5#32 7#256) := by
  rfl
/-- 95_test_vectors.md section 7, `START 4`. -/
theorem test_decode_start :
    decode (.cmd 0x1000000040000000000000000000000000000000000000000000000000000000000000000#290) = .ok (.start 4#32 0#256) := by
  rfl
/-- 95_test_vectors.md section 7, the START_SEEDED of program P4. -/
theorem test_decode_startSeeded :
    decode (.cmd 0x20000000185e655d6417a17953363376a624cde5c76e09589cac5f811cc4b32c1f20e533a#290) =
      .ok (.startSeeded 1#32 0x85e655d6417a17953363376a624cde5c76e09589cac5f811cc4b32c1f20e533a#256) := by rfl
/-- 95_test_vectors.md section 7, `CANCEL`. -/
theorem test_decode_cancel :
    decode (.cmd 0x3000000000000000000000000000000000000000000000000000000000000000000000000#290) = .ok (.cancel 0#32 0#256) := by
  rfl
theorem test_decode_beginBlock : decode (.step 0b00111001#8) = .ok (.beginBlock true false false true) := rfl
/-- Program P3. -/
theorem test_decode_finish : decode (.step 0b00101011#8) = .ok (.finish true false true) := rfl
theorem test_decode_waitOut : decode (.step 0b00101010#8) = .ok (.waitOut true false true) := rfl
theorem test_decode_schedLoad : decode (.step 0b01011110#8) = .ok (.schedLoad true true false) := rfl
/-- Program P2: key 0x5B. -/
theorem test_decode_underrun : decode (.step 0x5B#8) = .ok (.underrun true true) := rfl
theorem test_decode_waitIn : decode (.step 0b01011001#8) = .ok (.waitIn true true) := rfl
theorem test_decode_schedExpand : decode (.step 0b01010110#8) = .ok (.schedExpand true true true false) := rfl
theorem test_decode_round : decode (.step 0b01111010#8) = .ok (.round true true false true false) := rfl
theorem test_decode_fold : decode (.step 0b10010001#8) = .ok (.fold true false false false true) := rfl
theorem test_decode_holdIdle : decode (.step 0b00001100#8) = .ok (.holdIdle false true true false false) := rfl
theorem test_decode_holdDone : decode (.step 0b10101001#8) = .ok (.holdDone false true false false true) := rfl
theorem test_decode_holdFailed : decode (.step 0b11001010#8) = .ok (.holdFailed false true false true false) := rfl
/-- R71: the first key that selects nothing. -/
theorem test_decode_reserved : decode (.step 0xE0#8) = .error (.reservedKey 0xE0#8) := rfl
/-- The last key that selects something. -/
theorem test_decode_last : decode (.step 0xDF#8) = .ok (.holdFailed true true true true true) := rfl

/-! ### The functions, from the spec's vectors (95_test_vectors.md section 6) -/

theorem test_sigma0 : sigma0 0x12345678#32 = 0xe7fce6ee#32 := by decide
theorem test_sigma1 : sigma1 0x12345678#32 = 0xa1f78649#32 := by decide
theorem test_Sigma0 : Sigma0 0x12345678#32 = 0x66146474#32 := by decide
theorem test_Sigma1 : Sigma1 0x12345678#32 = 0x3561abda#32 := by decide
theorem test_Ch : Ch 0x12345678#32 0x9abcdef0#32 0x0fedcba9#32 = 0x1ffddff1#32 := by decide
theorem test_Maj : Maj 0x12345678#32 0x9abcdef0#32 0x0fedcba9#32 = 0x1abcdef8#32 := by decide
/-- Vector R5. -/
theorem test_round_ones : (roundOf (Vector.replicate 8 0xffffffff#32) 0xffffffff#32 0xffffffff#32).toList =
    [0xfffffff9#32, 0xffffffff#32, 0xffffffff#32, 0xffffffff#32, 0xfffffffa#32, 0xffffffff#32, 0xffffffff#32, 0xffffffff#32] := by
  decide
/-- Vector R3: a fixed point. -/
theorem test_round_fixed :
    (roundOf (Vector.replicate 8 0#32) 0x428a2f98#32 0xbd75d068#32).toList = List.replicate 8 0#32 := by decide
/-- Section 6.4, `add8`. -/
theorem test_add8 :
    (add8 #v[0xffffffff#32, 0x80000000#32, 1#32, 0#32, 0x12345678#32, 0xffffffff#32, 0#32, 0x7fffffff#32]
      #v[2#32, 0x80000000#32, 0xffffffff#32, 0#32, 0x9abcdef0#32, 0xffffffff#32, 0#32, 1#32]).toList =
    [1#32, 0#32, 0#32, 0#32, 0xacf13568#32, 0xfffffffe#32, 0#32, 0x80000000#32] := by decide
/-- Vector E6: `M[i] = i`, W[16] and W[23]. -/
theorem test_sched : sched #v[0, 1, 2, 3, 4, 5, 6, 7, 8, 9, 10, 11, 12, 13, 14, 15] 16 = 0x02070009#32 ∧
    sched #v[0, 1, 2, 3, 4, 5, 6, 7, 8, 9, 10, 11, 12, 13, 14, 15] 23 = 0x2929f37f#32 := by decide
/-- Section 7: `PUSH 61626380` and EOS as input beats (R67). -/
theorem test_inBeat : inBeat { quietPins with inValid := true, inData := 0x61626380#32 } = 0x161626380#34 ∧
    inBeat { quietPins with inEos := true } = 0x200000000#34 := by decide
/-- Section 1 and vector S2: "abc" padded. -/
theorem test_padding : wordsOfBytes (padBytes [0x61#8, 0x62#8, 0x63#8]) =
    0x61626380#32 :: List.replicate 14 0#32 ++ [0x18#32] := by decide

/-! ### One step each -/

/-- A state with the given place in the work and the given port values in its next step. -/
def stateAt (ph : Phase) (t : BitVec 6) (n : BlockCount) (p : Config.Pins) : State :=
  { State.reset with STATE := ph, T := t, NREM := n, script := [p] }

/-- What an outcome's next state shows through `f`. -/
def seen {α : Type} (o : Host.Outcome State Fault Refusal) (f : State → α) : Option α :=
  match o with
  | .next t => some (f t)
  | .fault _ => none
  | .refused _ => none

/-- Port values with one command word offered. -/
def offer (w : CmdWord) : Config.Pins := { quietPins with cmdValid := true, cmdWord := w }

/-- R170, vector X13: RESET beats CANCEL and a Word. -/
theorem test_reset_wins :
    seen (step (stateAt .compressing 20 2
      { offer (cmdWordOf opCancel 0 0) with rst := true, inValid := true })) (fun t => (t.STATE, t.ERR, t.trace)) =
    some (.idle, .none, []) := by decide
/-- R130, vector X9: the step of a NOP performs BEGIN_BLOCK. -/
theorem test_nop_step : seen (step (stateAt .awaitingBlock 0 1 (offer 0#290))) (fun t => (t.STATE, t.trace)) =
    some (.expandingSchedule, [.command 0#290]) := by decide
/-- R127. -/
theorem test_start : seen (step (stateAt .failed 0 0 (offer (cmdWordOf opStart 1 0))))
    (fun t => (t.STATE, t.NREM, t.H.toList.head?)) = some (.awaitingBlock, 1#32, some 0x6a09e667#32) := by decide
/-- R131, vector X8: a START offered to a busy CORE is not taken. -/
theorem test_start_busy : seen (step (stateAt .awaitingBlock 0 1 (offer (cmdWordOf opStart 1 0))))
    (fun t => (t.STATE, t.trace)) = some (.expandingSchedule, []) := by decide
/-- R128, program P4: the seed's first and last Word. -/
theorem test_startSeeded : seen (step (stateAt .done 0 0
      (offer 0x20000000185e655d6417a17953363376a624cde5c76e09589cac5f811cc4b32c1f20e533a#290)))
    (fun t => (t.H[0], t.H[7], t.NREM)) = some (0x85e655d6#32, 0xf20e533a#32, 1#32) := by decide
/-- R129: the rule's example. -/
theorem test_cancel : seen (step (stateAt .compressing 20 2 (offer (cmdWordOf opCancel 0 0))))
    (fun t => (t.STATE, t.ERR, t.T, t.NREM)) = some (.failed, .cancelled, 0#6, 0#32) := by decide
/-- Vector X12: CANCEL in Done changes nothing. -/
theorem test_cancel_done : seen (step (stateAt .done 0 0 (offer (cmdWordOf opCancel 0 0))))
    (fun t => (t.STATE, t.ERR)) = some (.done, .none) := by decide
/-- R112, section 6.4: the BEGIN_BLOCK state vector. -/
theorem test_beginBlock : seen (step { stateAt .awaitingBlock 63 2 quietPins with H := IV })
    (fun t => (t.STATE, t.V.toList == IV.toList, t.T, t.NREM)) = some (.expandingSchedule, true, 0#6, 2#32) := by decide
/-- R113: the carry of one component does not disturb the next. -/
theorem test_fold : seen (step { stateAt .folding 63 1 quietPins with
      H := #v[0xffffffff#32, 5#32, 0#32, 0#32, 0#32, 0#32, 0#32, 0#32]
      V := #v[2#32, 0#32, 0#32, 0#32, 0#32, 0#32, 0#32, 0#32] })
    (fun t => (t.STATE, t.NREM, t.T, t.H[0], t.H[1])) = some (.awaitingBlock, 0#32, 63#6, 1#32, 5#32) := by decide
/-- Vector X1: the seed is handed over. -/
theorem test_finish : seen (step { stateAt .awaitingBlock 0 0 { quietPins with outReady := true } with H := IV })
    (fun t => (t.STATE, t.trace, t.H.toList.head?)) =
    some (.done, [.digest 0x6a09e667bb67ae853c6ef372a54ff53a510e527f9b05688c1f83d9ab5be0cd19#256], some 0#32) := by decide
/-- Vector X10: CANCEL beats FINISH. -/
theorem test_cancel_beats_finish : seen (step (stateAt .awaitingBlock 63 0
      { offer (cmdWordOf opCancel 0 0) with outReady := true })) (fun t => (t.STATE, t.ERR, t.trace.length)) =
    some (.failed, .cancelled, 1) := by decide
/-- Vector X2. -/
theorem test_waitOut : seen (step (stateAt .awaitingBlock 63 0 quietPins)) (fun t => (t.STATE, t.T)) =
    some (.awaitingBlock, 63#6) := by decide
/-- R85, the rule's example; a Word beats the end of stream (vector X5). -/
theorem test_schedLoad : seen (step (stateAt .expandingSchedule 0 1
      { quietPins with inValid := true, inData := 0x61626380#32, inEos := true }))
    (fun t => (t.STATE, t.T, t.WIN[15], t.WIN[14], t.trace)) =
    some (.compressing, 0#6, 0x61626380#32, 0#32, [.word 0x61626380#32]) := by decide
/-- R151: at the last load round. -/
theorem test_underrun : seen (step (stateAt .expandingSchedule 15 1 { quietPins with inEos := true }))
    (fun t => (t.STATE, t.ERR)) = some (.failed, .inputUnderrun) := by decide
theorem test_waitIn : seen (step (stateAt .expandingSchedule 4 1 quietPins)) (fun t => (t.STATE, t.T)) =
    some (.expandingSchedule, 4#6) := by decide
/-- R86, the rule's example at `T = 17`; the end of stream is not looked at (vector X6). -/
theorem test_schedExpand : seen (step { stateAt .expandingSchedule 17 1 { quietPins with inEos := true } with
      WIN := #v[0, 0, 0, 0, 0, 0, 0, 0, 0, 0, 0, 0, 0, 0, 0x18#32, 0x61626380#32] })
    (fun t => (t.STATE, t.WIN[15], t.WIN[14])) = some (.compressing, 0x000f0000#32, 0x61626380#32) := by decide
/-- R101, the rule's example: vector R1. -/
theorem test_round : seen (step { stateAt .compressing 0 1 quietPins with
      V := IV, WIN := #v[0, 0, 0, 0, 0, 0, 0, 0, 0, 0, 0, 0, 0, 0, 0, 0x61626380#32] })
    (fun t => (t.STATE, t.T, t.V.toList)) = some (.expandingSchedule, 1#6,
      [0x5d6aebcd#32, 0x6a09e667#32, 0xbb67ae85#32, 0x3c6ef372#32, 0xfa2a4622#32, 0x510e527f#32, 0x9b05688c#32, 0x1f83d9ab#32]) := by
  decide
/-- Section 6.3: round 63 leads to Folding, and `T` does not wrap. -/
theorem test_round_last : seen (step (stateAt .compressing 63 1 quietPins)) (fun t => (t.STATE, t.T)) =
    some (.folding, 63#6) := by decide
/-- Vector X14. -/
theorem test_holdIdle : seen (step (stateAt .idle 0 0 { quietPins with inValid := true })) (fun t => (t.STATE, t.trace)) =
    some (.idle, []) := by decide
theorem test_holdDone : seen (step (stateAt .done 0 0 quietPins)) (fun t => t.STATE) = some .done := by decide
theorem test_holdFailed : seen (step { stateAt .failed 0 0 quietPins with ERR := .cancelled })
    (fun t => (t.STATE, t.ERR)) = some (.failed, .cancelled) := by decide

/-! ### The host's words -/

theorem test_table_reset : decodeTableWord 8 1 = some .reset := by decide
theorem test_table_holdIdle : decodeTableWord 8 0 = some (.holdIdle false false false false false) := by decide
theorem test_table_round : decodeTableWord 8 0x60 = some (.round false false false false false) := by decide
/-- The START row's match of the opcode table, `nbits` as 290 bits in whole bytes. -/
theorem test_table_start : decodeTableWord 296
    0x1000000000000000000000000000000000000000000000000000000000000000000000000 = some (.start 0 0) := by decide
theorem test_fetch_start : seen (step (State.reset.withFetchWord 296
    0x1000000000000000000000000000000000000000000000000000000000000000000000000)) (fun t => t.STATE) =
    some .awaitingBlock := by decide
theorem test_fetch_fold : seen (step (State.reset.withFetchWord 8 0x80)) (fun t => t.STATE) = some .awaitingBlock := by decide
theorem test_fetch_expand : seen (step (State.reset.withFetchWord 8 0x40)) (fun t => (t.STATE, t.T)) =
    some (.compressing, 16#6) := by decide

/-! ### Witnesses: concrete states and operands that meet the hypotheses of the statements -/

/-- A CORE that has accepted `START 0` and offers its digest to a ready collaborator. -/
def offering : State :=
  { stateAt .awaitingBlock 0 0 { quietPins with outReady := true } with
    H := IV, trace := [.command (cmdWordOf opStart 0 0)] }

theorem witness_offering_inv : offering.Inv :=
  ⟨by decide, by decide, by decide, by decide, by decide⟩

theorem witness_offering_faithful : offering.Faithful :=
  ⟨⟨IV, 0#32, [], []⟩, by decide,
    ⟨rfl, by decide, rfl, fun _ => rfl, fun h => absurd h (by decide), fun h => absurd h (by decide),
      fun h => absurd h (by decide)⟩⟩

/-- DigestIsTheChainOfTheWordsTaken, StepKeepsTheStateInvariants, StepKeepsRegistersFaithful. -/
theorem witness_digest : ∃ t, step offering = .next t ∧ (transfers offering).out = some (pack8 IV) := ⟨_, rfl, by decide⟩

/-- EncodeOfDecode, SelectedOperationWellFormed, TransfersFollowTheOperation: FINISH. -/
theorem witness_selection : selection offering = .ok (none, .finish true false false) ∧
    decode (.step 0b00101001#8) = .ok (.finish true false false) := ⟨rfl, rfl⟩

/-- TransfersFollowTheOperation: SCHED_LOAD, and a NOP beside it. -/
theorem witness_selection_load :
    selection (stateAt .expandingSchedule 15 1 { quietPins with inValid := true }) = .ok (none, .schedLoad true false false) ∧
    selection (stateAt .expandingSchedule 15 1 { offer 0 with inValid := true }) =
      .ok (some (.nop 0 0), .schedLoad true false false) := ⟨rfl, rfl⟩

/-- StepRowsDisjointAndTotal: both sides of the bound. -/
theorem witness_keys : (0xDF#8).toNat ≤ 0xDF ∧ 0xE0 ≤ (0xE0#8).toNat := by decide

/-- StepRunsSelectedOperation: RESET, CANCEL, START, no command, START while busy, NOP. -/
theorem witness_step_reset : (stateAt .idle 0 0 { quietPins with rst := true }).pins.rst = true ∧
    decode (.pin 1#1) = .ok .reset := ⟨rfl, rfl⟩
theorem witness_step_cancel : let s := stateAt .compressing 0 1 (offer (cmdWordOf opCancel 0 0))
    s.pins.rst = false ∧ s.pins.cmdValid = true ∧ cmdOp s.pins.cmdWord = opCancel ∧ s.busy = true ∧
    s.cancelOffered = true ∧ decode (.cmd s.pins.cmdWord) = .ok (.cancel 0 0) := ⟨rfl, rfl, rfl, rfl, rfl, rfl⟩
theorem witness_step_start : let s := stateAt .idle 0 0 (offer (cmdWordOf opStart 1 0))
    s.pins.rst = false ∧ s.pins.cmdValid = true ∧ cmdOp s.pins.cmdWord = opStart ∧ s.busy = false ∧
    s.startAccepted = true ∧ decode (.cmd s.pins.cmdWord) = .ok (.start 1 0) := ⟨rfl, rfl, rfl, rfl, rfl, rfl⟩
theorem witness_step_startSeeded : let s := stateAt .done 0 0 (offer (cmdWordOf opStartSeeded 1 9))
    s.pins.rst = false ∧ s.pins.cmdValid = true ∧ cmdOp s.pins.cmdWord = opStartSeeded ∧ s.busy = false ∧
    decode (.cmd s.pins.cmdWord) = .ok (.startSeeded 1 9) := ⟨rfl, rfl, rfl, rfl, rfl⟩
theorem witness_step_internal : let s := stateAt .folding 63 1 quietPins
    s.pins.rst = false ∧ s.pins.cmdValid = false ∧
    decode (.step s.dispatchKey) = .ok (.fold true false false false false) := ⟨rfl, rfl, rfl⟩
theorem witness_step_start_busy : let s := stateAt .folding 63 1 (offer (cmdWordOf opStart 1 0))
    s.pins.rst = false ∧ cmdOp s.pins.cmdWord = opStart ∧ s.busy = true ∧
    decode (.step s.dispatchKey) = .ok (.fold true false false false false) := ⟨rfl, rfl, rfl, rfl⟩
theorem witness_step_nop : let s := stateAt .folding 63 1 (offer 0)
    s.pins.rst = false ∧ s.pins.cmdValid = true ∧ cmdOp s.pins.cmdWord = opNop ∧
    decode (.cmd s.pins.cmdWord) = .ok (.nop 0 0) ∧
    decode (.step s.dispatchKey) = .ok (.fold true false false false false) := ⟨rfl, rfl, rfl, rfl, rfl⟩

/-- CommandAcceptanceTable: a state of each kind. -/
theorem witness_acceptance : State.reset.STATE = .idle ∧ offering.STATE = .awaitingBlock := ⟨rfl, rfl⟩

/-- StepRecordsItsTransfers, BlockCountMismatchIsNeverRaised: a step, and one that keeps the code. -/
theorem witness_mismatch : ∃ t, step { stateAt .failed 0 0 quietPins with ERR := .blockCountMismatch } = .next t ∧
    t.ERR = .blockCountMismatch := ⟨_, rfl, rfl⟩

/-- UnseenPortValuesHaveNoEffect: in Compressing the source's signals are not looked at. -/
theorem witness_unseen : SameSeen (stateAt .compressing 3 1 quietPins) quietPins
    { quietPins with inValid := true, inData := 7#32, inEos := true, outReady := true, cmdWord := 9 } := by
  refine ⟨rfl, fun _ => ⟨rfl, ?_, ?_, ?_⟩⟩ <;> intro h <;> revert h <;> decide

/-- The hypotheses of the operations' statements, each at a boundary of `T` where it has one. -/
theorem witness_beginBlock : let s := stateAt .awaitingBlock 63 1 quietPins
    s.STATE = .awaitingBlock ∧ s.NREM ≠ 0#32 ∧ s.undisturbed := ⟨rfl, by decide, rfl, rfl⟩
theorem witness_fold : let s := stateAt .folding 63 1 quietPins
    s.Inv ∧ s.STATE = .folding ∧ s.undisturbed := ⟨⟨by decide, by decide, by decide, by decide, by decide⟩, rfl, rfl, rfl⟩
theorem witness_fold_effect : ∃ t, FoldEffect (stateAt .folding 63 1 quietPins) t :=
  ⟨stateAt .awaitingBlock 63 0 quietPins, by unfold FoldEffect; decide⟩
theorem witness_finish : offering.STATE = .awaitingBlock ∧ offering.NREM = 0#32 ∧ offering.pins.outReady = true ∧
    offering.undisturbed := ⟨rfl, rfl, rfl, rfl, rfl⟩
theorem witness_schedLoad : let s := stateAt .expandingSchedule 15 1 { quietPins with inValid := true }
    s.STATE = .expandingSchedule ∧ s.T.toNat < 16 ∧ s.pins.inValid = true ∧ s.undisturbed := ⟨rfl, by decide, rfl, rfl, rfl⟩
theorem witness_schedExpand : let s := stateAt .expandingSchedule 16 1 quietPins
    s.STATE = .expandingSchedule ∧ 16 ≤ s.T.toNat ∧ s.undisturbed := ⟨rfl, by decide, rfl, rfl⟩
theorem witness_round : let s := stateAt .compressing 63 1 quietPins
    s.STATE = .compressing ∧ s.T.toNat = 63 ∧ s.undisturbed := ⟨rfl, rfl, rfl, rfl⟩
theorem witness_round_below : (stateAt .compressing 62 1 quietPins).T.toNat ≠ 63 := by decide
theorem witness_underrun : let s := stateAt .expandingSchedule 15 1 { quietPins with inEos := true }
    s.STATE = .expandingSchedule ∧ s.T.toNat < 16 ∧ s.pins.inValid = false ∧ s.pins.inEos = true ∧ s.undisturbed :=
  ⟨rfl, by decide, rfl, rfl, rfl, rfl⟩
theorem witness_waitIn : let s := stateAt .expandingSchedule 15 1 quietPins
    s.STATE = .expandingSchedule ∧ s.T.toNat < 16 ∧ s.pins.inValid = false ∧ s.pins.inEos = false ∧ s.undisturbed ∧
    s.inReady = true ∧ s.busy = true ∧ s.suspended = true := ⟨rfl, by decide, rfl, rfl, ⟨rfl, rfl⟩, rfl, rfl, rfl⟩
theorem witness_waitOut : let s := stateAt .awaitingBlock 63 0 quietPins
    s.STATE = .awaitingBlock ∧ s.NREM = 0#32 ∧ s.pins.outReady = false ∧ s.undisturbed := ⟨rfl, rfl, rfl, rfl, rfl⟩
theorem witness_rest : let s := stateAt .failed 0 0 quietPins
    s.busy = false ∧ s.STATE = .failed ∧ s.pins.rst = false ∧ s.startAccepted = false := ⟨rfl, rfl, rfl, rfl⟩

/-- EveryUndisturbedStepMakesProgress: a busy state that meets R36 and does not wait. -/
theorem witness_progress : let s := stateAt .compressing 62 1 quietPins
    s.Inv ∧ s.busy = true ∧ s.undisturbed ∧ s.suspended = false :=
  ⟨⟨by decide, by decide, by decide, by decide, by decide⟩, rfl, ⟨rfl, rfl⟩, rfl⟩

/-- FailureGivesNoDigest. -/
theorem witness_failure : ∃ t, step (stateAt .expandingSchedule 0 1 { quietPins with inEos := true }) = .next t ∧
    t.STATE = .failed := ⟨_, rfl, rfl⟩

/-- RoundIndexNeverWraps: ROUND at the top of `T`'s range, BEGIN_BLOCK after it, and an operation that leaves `T`. -/
theorem witness_round_index :
    (∃ t, exec (.round true false false false false) (stateAt .compressing 63 1 quietPins) = .next t ∧ t.T = 63#6) ∧
    (∃ t, exec (.beginBlock false false false false) (stateAt .awaitingBlock 63 1 quietPins) = .next t ∧ t.T = 0#6) ∧
    (∃ t, exec (.fold true false false false false) (stateAt .folding 63 1 quietPins) = .next t ∧ t.T = 63#6) :=
  ⟨⟨_, rfl, rfl⟩, ⟨_, rfl, rfl⟩, ⟨_, rfl, rfl⟩⟩

/-- PaddedMessageFillsItsBlocks: the longest one-block message and the next (95_test_vectors.md section 1), both below the
bound. -/
theorem witness_blocks : messageBlocks (List.replicate 55 0#8) = 1 ∧ messageBlocks (List.replicate 56 0#8) = 2 ∧
    messageBlocks (List.replicate 56 0#8) < 2 ^ 32 := by decide

/-- RoundIndexNeverWraps and DigestStateChangesOnlyAtItsPoints: an operation that moves `T`, one that moves `H`. -/
theorem witness_exec : (∃ t, exec (.round true false false false false) (stateAt .compressing 62 1 quietPins) = .next t ∧
      t.T ≠ 62#6) ∧
    (∃ t, exec (.start 1 0) State.reset = .next t ∧ t.H ≠ State.reset.H) :=
  ⟨⟨_, rfl, by decide⟩, ⟨_, rfl, by decide⟩⟩

/-- SuppliedBlockIsCompressed: zeros offered in every step supply the zero block. -/
theorem witness_supply (env : List Config.Pins)
    (h : env = List.replicate 131 { quietPins with inValid := true, outReady := true }) :
    SuppliesBlock env (Vector.replicate 16 0#32) := by
  subst h
  refine ⟨by simp, ?_, ?_⟩
  · intro p hp
    have := List.eq_of_mem_replicate (List.mem_of_mem_take hp)
    subst this
    exact ⟨rfl, fun h => absurd h.1 (by decide)⟩
  · intro t
    exact ⟨{ quietPins with inValid := true, outReady := true }, by
      rw [List.getElem?_replicate, if_pos (by omega)], rfl, by simp [quietPins]⟩

/-- WholeMessageIsHashed: `START 1` in Idle, then the port values of `witness_supply`. -/
theorem witness_whole :
    let p := offer (cmdWordOf opStart 1 0)
    let q : Config.Pins := { quietPins with inValid := true, outReady := true }
    let env := List.replicate 131 q
    let s := { State.reset with script := p :: env }
    s.busy = false ∧ s.script = p :: env ∧ p.rst = false ∧ p.cmdValid = true ∧ cmdOp p.cmdWord = opStart ∧
    (cmdNblocks p.cmdWord).toNat = [Vector.replicate 16 0#32].length ∧
    SuppliesBlocks env [Vector.replicate 16 0#32] ∧ env[130 * 1]? = some q ∧ PinsUndisturbed q ∧ q.outReady = true :=
  ⟨rfl, rfl, rfl, rfl, by decide, by decide, ⟨witness_supply _ rfl, trivial⟩, by simp, ⟨rfl, fun h => absurd h.1 (by decide)⟩, rfl⟩

/-- SuppliedBlockIsCompressed: a state that waits for its block, with a script that supplies it. -/
theorem witness_block :
    let s := { stateAt .awaitingBlock 0 1 quietPins with
      script := List.replicate 131 { quietPins with inValid := true, outReady := true } }
    s.STATE = .awaitingBlock ∧ s.NREM ≠ 0#32 ∧ SuppliesBlock s.script (Vector.replicate 16 0#32) :=
  ⟨rfl, by decide, witness_supply _ rfl⟩

/-- PacingDoesNotMatter: three quiet steps. -/
theorem witness_quiet : ∀ p ∈ List.replicate 3 quietPins,
    p.rst = false ∧ p.cmdValid = false ∧ p.inValid = false ∧ p.inEos = false := by decide

/-- RoundSumAndFixedPoints: the rule's own numbers (vector R7, `x = 1`), and two pairs with one sum (vector R8). -/
theorem witness_fixed_point : (0xc2d1e22e#32 + 0#32 : Word) =
      - Sigma0 1#32 - Sigma1 (1#32 - Sigma0 1#32) - 2 * (1#32 - Sigma0 1#32) ∧
    (0x11111111#32 + 0x22222222#32 : Word) = 0x33333333#32 + 0#32 := by decide

/-- ScheduleRecurrence: the ends of its range, and two blocks that agree on the four Words. -/
theorem witness_sched : (16 ≤ 16 ∧ 16 ≤ 63) ∧ (16 ≤ 63 ∧ 63 ≤ 63) ∧
    (#v[0, 0, 1, 0, 0, 0, 0, 0, 0, 0, 0, 0, 0, 0, 0, 0] : Words16)[9] = (Vector.replicate 16 0#32)[9] := by decide

end Sys2Proof.Tests
end

