-- ==== Sys2Proof/Proofs/MixingFunctions.lean ====
section
/-!
PROOFS. Bit by bit, the rotation and the shift of R10 move bits and do nothing else; so they, and the mixing functions
of R81, R82, R96 and R97 made of them, are linear over exclusive or.
-/
namespace Sys2Proof.Machine

/-! ### The primitives of R10 -/

/-- A right rotation brings to position `i` the bit `n` positions above, counted around the Word. -/
theorem getLsbD_rotr (x : Word) (n : Nat) {i : Nat} (hi : i < 32) :
    (rotr x n).getLsbD i = x.getLsbD ((i + n) % 32) := by
  rw [rotr, BitVec.getLsbD_rotateRight, Bool.cond_decide]
  split
  case isTrue inPlace =>
    have : n % 32 + i = (i + n) % 32 := by omega
    rw [this]
  case isFalse wraps =>
    have : i - (32 - n % 32) = (i + n) % 32 := by omega
    rw [this, decide_eq_true hi, Bool.true_and]

/-- A logical right shift brings to position `i` the bit `n` positions above, where the Word has one. -/
theorem getLsbD_shr (x : Word) (n i : Nat) :
    (shr x n).getLsbD i = (decide (i + n ≤ 31) && x.getLsbD (i + n)) := by
  rw [shr, BitVec.getLsbD_ushiftRight, Nat.add_comm n i]
  by_cases inWord : i + n ≤ 31
  · rw [decide_eq_true inWord, Bool.true_and]
  · rw [decide_eq_false inWord, Bool.false_and]
    exact BitVec.getLsbD_of_ge x (i + n) (by omega)

@[simp] theorem rotr_xor (x y : Word) (n : Nat) : rotr (x ^^^ y) n = rotr x n ^^^ rotr y n := by
  apply BitVec.eq_of_getLsbD_eq
  intro i hi
  simp only [BitVec.getLsbD_xor, getLsbD_rotr _ n hi]

@[simp] theorem shr_xor (x y : Word) (n : Nat) : shr (x ^^^ y) n = shr x n ^^^ shr y n :=
  BitVec.ushiftRight_xor_distrib x y n

/-! ### The mixing functions -/

/-- R81 bit by bit. -/
theorem getLsbD_sigma0 (x : Word) {i : Nat} (hi : i < 32) :
    (sigma0 x).getLsbD i = ((x.getLsbD ((i + 7) % 32) ^^ x.getLsbD ((i + 18) % 32)) ^^
      (decide (i + 3 ≤ 31) && x.getLsbD (i + 3))) := by
  simp only [sigma0, BitVec.getLsbD_xor, getLsbD_rotr x _ hi, getLsbD_shr]

/-- R82 bit by bit. -/
theorem getLsbD_sigma1 (x : Word) {i : Nat} (hi : i < 32) :
    (sigma1 x).getLsbD i = ((x.getLsbD ((i + 17) % 32) ^^ x.getLsbD ((i + 19) % 32)) ^^
      (decide (i + 10 ≤ 31) && x.getLsbD (i + 10))) := by
  simp only [sigma1, BitVec.getLsbD_xor, getLsbD_rotr x _ hi, getLsbD_shr]

/-- R96 bit by bit. -/
theorem getLsbD_Sigma0 (x : Word) {i : Nat} (hi : i < 32) :
    (Sigma0 x).getLsbD i =
      ((x.getLsbD ((i + 2) % 32) ^^ x.getLsbD ((i + 13) % 32)) ^^ x.getLsbD ((i + 22) % 32)) := by
  simp only [Sigma0, BitVec.getLsbD_xor, getLsbD_rotr x _ hi]

/-- R97 bit by bit. -/
theorem getLsbD_Sigma1 (x : Word) {i : Nat} (hi : i < 32) :
    (Sigma1 x).getLsbD i =
      ((x.getLsbD ((i + 6) % 32) ^^ x.getLsbD ((i + 11) % 32)) ^^ x.getLsbD ((i + 25) % 32)) := by
  simp only [Sigma1, BitVec.getLsbD_xor, getLsbD_rotr x _ hi]

/-- The exclusive or of three terms that are each an exclusive or, regrouped by operand. -/
theorem xor_three_pairs (a a' b b' c c' : Word) :
    a ^^^ a' ^^^ (b ^^^ b') ^^^ (c ^^^ c') = (a ^^^ b ^^^ c) ^^^ (a' ^^^ b' ^^^ c') := by ac_rfl

/-- R83. -/
theorem sigma0_xor (x y : Word) : sigma0 (x ^^^ y) = sigma0 x ^^^ sigma0 y := by
  simp only [sigma0, rotr_xor, shr_xor, xor_three_pairs]

/-- R83. -/
theorem sigma1_xor (x y : Word) : sigma1 (x ^^^ y) = sigma1 x ^^^ sigma1 y := by
  simp only [sigma1, rotr_xor, shr_xor, xor_three_pairs]

/-- R83: a function linear over exclusive or is zero at zero. -/
@[simp] theorem sigma0_zero : sigma0 0#32 = 0#32 := by
  simpa using sigma0_xor 0#32 0#32

@[simp] theorem sigma1_zero : sigma1 0#32 = 0#32 := by
  simpa using sigma1_xor 0#32 0#32

/-- Settles O47: the bits are those the rotation and the shift bring, and the linearity is theirs. -/
theorem mixingFunctionsBitByBit : Obligations.MixingFunctionsBitByBit := by
  refine ⟨fun x i => ⟨?sigma0, ?sigma1, ?Sigma0, ?Sigma1⟩, fun x y => ⟨sigma0_xor x y, sigma1_xor x y⟩,
    sigma0_zero, sigma1_zero⟩
  case sigma0 => exact getLsbD_sigma0 x i.isLt
  case sigma1 => exact getLsbD_sigma1 x i.isLt
  case Sigma0 => exact getLsbD_Sigma0 x i.isLt
  case Sigma1 => exact getLsbD_Sigma1 x i.isLt

end Sys2Proof.Machine
end

