-- ==== Sys2Proof/Proofs/StepCases.lean ====
section
/-!
PROOFS. What a step selects (R70) and what it does: every step answers a next state, and that state is one of the cases
of `StepResult`. The statements about the invariants are case splits along these.
-/
namespace Sys2Proof.Machine

/-! ### The selection -/

/-- The STEP operation of the dispatch key, by controller state (R66). -/
def State.internalOp (s : State) : Instr :=
  match s.STATE with
  | .idle => .holdIdle (!s.noBlocksLeft) s.loadRound s.pins.inValid s.pins.inEos s.pins.outReady
  | .awaitingBlock =>
    if !s.noBlocksLeft then .beginBlock s.loadRound s.pins.inValid s.pins.inEos s.pins.outReady
    else if s.pins.outReady then .finish s.loadRound s.pins.inValid s.pins.inEos
    else .waitOut s.loadRound s.pins.inValid s.pins.inEos
  | .expandingSchedule =>
    if s.loadRound then
      (if s.pins.inValid then .schedLoad (!s.noBlocksLeft) s.pins.inEos s.pins.outReady
       else if s.pins.inEos then .underrun (!s.noBlocksLeft) s.pins.outReady
       else .waitIn (!s.noBlocksLeft) s.pins.outReady)
    else .schedExpand (!s.noBlocksLeft) s.pins.inValid s.pins.inEos s.pins.outReady
  | .compressing => .round (!s.noBlocksLeft) s.loadRound s.pins.inValid s.pins.inEos s.pins.outReady
  | .folding => .fold (!s.noBlocksLeft) s.loadRound s.pins.inValid s.pins.inEos s.pins.outReady
  | .done => .holdDone (!s.noBlocksLeft) s.loadRound s.pins.inValid s.pins.inEos s.pins.outReady
  | .failed => .holdFailed (!s.noBlocksLeft) s.loadRound s.pins.inValid s.pins.inEos s.pins.outReady

theorem decode_dispatchKey_internalOp (s : State) : decode (.step s.dispatchKey) = .ok s.internalOp :=
  decode_dispatchKey s

theorem selection_reset {s : State} (hr : s.pins.rst = true) : selection s = .ok (none, .reset) := by
  rw [selection, if_pos hr]; rfl

theorem selection_command {s : State} (hr : s.pins.rst = false)
    (hc : (s.cancelOffered || s.startAccepted) = true) :
    selection s = .ok (none, decodeCmd s.pins.cmdWord) := by
  rw [selection, if_neg (by simp [hr]), if_pos hc]; rfl

theorem selection_internal {s : State} (hr : s.pins.rst = false)
    (hc : (s.cancelOffered || s.startAccepted) = false) :
    selection s = .ok (if s.nopOffered then some (decodeCmd s.pins.cmdWord) else none, s.internalOp) := by
  rw [selection, if_neg (by simp [hr]), if_neg (by simp [hc]), decode_dispatchKey_internalOp]

/-! ### The decoded command -/

theorem decodeCmd_cancel {w : CmdWord} (h : cmdOp w = opCancel) :
    decodeCmd w = .cancel (cmdNblocks w) (cmdSeed w) := by
  simp [decodeCmd, h, opCancel, opNop, opStart, opStartSeeded]

theorem decodeCmd_start {w : CmdWord} (h : cmdOp w = opStart) :
    decodeCmd w = .start (cmdNblocks w) (cmdSeed w) := by
  simp [decodeCmd, h, opNop, opStart]

theorem decodeCmd_startSeeded {w : CmdWord} (h : cmdOp w = opStartSeeded) :
    decodeCmd w = .startSeeded (cmdNblocks w) (cmdSeed w) := by
  simp [decodeCmd, h, opNop, opStart, opStartSeeded]

theorem cancelOffered_iff (s : State) :
    s.cancelOffered = true ↔ s.pins.cmdValid = true ∧ cmdOp s.pins.cmdWord = opCancel := by
  simp [State.cancelOffered]

theorem startAccepted_iff (s : State) :
    s.startAccepted = true ↔ s.pins.cmdValid = true ∧
      (cmdOp s.pins.cmdWord = opStart ∨ cmdOp s.pins.cmdWord = opStartSeeded) ∧ s.busy = false := by
  simp [State.startAccepted, and_assoc]

/-- The seed a START or START_SEEDED brings (R127, R128). -/
def commandSeed (w : CmdWord) : Words8 := if cmdOp w = opStart then IV else words8 (cmdSeed w)

/-- A CANCEL with the word `w` runs: it abandons a busy CORE's computation and changes nothing else (R129). -/
theorem exec_decodeCmd_cancel {w : CmdWord} (h : cmdOp w = opCancel) (s : State) :
    exec (decodeCmd w) s =
      .next (if s.busy then (s.record (.command w)).raiseCondition .cancelled else s.record (.command w)) := by
  have hw : cmdWordOf opCancel (cmdNblocks w) (cmdSeed w) = w := h ▸ cmdWordOf_fields w
  rw [decodeCmd_cancel h, exec, execCancel, hw]
  split <;> rfl

/-- A START or START_SEEDED with the word `w` runs on a CORE that is not busy (R127, R128). -/
theorem exec_decodeCmd_start {w : CmdWord} (h : cmdOp w = opStart ∨ cmdOp w = opStartSeeded) {s : State}
    (hb : s.busy = false) :
    exec (decodeCmd w) s = .next ((s.record (.command w)).beginRun (commandSeed w) (cmdNblocks w)) := by
  rcases h with h | h
  · have hw : cmdWordOf opStart (cmdNblocks w) (cmdSeed w) = w := h ▸ cmdWordOf_fields w
    rw [decodeCmd_start h, exec, execStart, if_neg (by simp [hb]), hw, commandSeed, if_pos h]
  · have hw : cmdWordOf opStartSeeded (cmdNblocks w) (cmdSeed w) = w := h ▸ cmdWordOf_fields w
    rw [decodeCmd_startSeeded h, exec, execStartSeeded, if_neg (by simp [hb]), hw, commandSeed,
      if_neg (by rw [h]; decide)]

/-! ### The operations whose effect depends on the state -/

/-- An operation with two outcomes makes one of them. -/
theorem next_ite_cases {b : Bool} {x y t : State}
    (h : (if b then .next x else .next y : Host.Outcome State Fault Refusal) = .next t) :
    (b = true ∧ t = x) ∨ (b = false ∧ t = y) := by
  cases b <;> cases h
  · exact .inr ⟨rfl, rfl⟩
  · exact .inl ⟨rfl, rfl⟩

theorem exec_start_cases {n : BlockCount} {seed : BitVec 256} {s t : State} (h : exec (.start n seed) s = .next t) :
    (s.busy = true ∧ t = s) ∨
      (s.busy = false ∧ t = (s.record (.command (cmdWordOf opStart n seed))).beginRun IV n) := next_ite_cases h

theorem exec_startSeeded_cases {n : BlockCount} {seed : BitVec 256} {s t : State}
    (h : exec (.startSeeded n seed) s = .next t) :
    (s.busy = true ∧ t = s) ∨
      (s.busy = false ∧ t = (s.record (.command (cmdWordOf opStartSeeded n seed))).beginRun (words8 seed) n) :=
  next_ite_cases h

theorem exec_cancel_cases {n : BlockCount} {seed : BitVec 256} {s t : State} (h : exec (.cancel n seed) s = .next t) :
    (s.busy = true ∧ t = (s.record (.command (cmdWordOf opCancel n seed))).raiseCondition .cancelled) ∨
      (s.busy = false ∧ t = s.record (.command (cmdWordOf opCancel n seed))) := next_ite_cases h

theorem execRound_cases {s t : State} (h : execRound s = .next t) :
    (s.lastRound = true ∧ t = { s with V := roundOf s.V (K s.T) s.WIN[15], STATE := .folding }) ∨
      (s.lastRound = false ∧
        t = { s with V := roundOf s.V (K s.T) s.WIN[15], T := s.T + 1#6, STATE := .expandingSchedule }) :=
  next_ite_cases h

/-! ### The internal operation -/

/-- ROUND after round 63 (R101): the block is ready to fold and `T` stays. -/
theorem execRound_last {s : State} (last : s.T = 63#6) :
    execRound s = .next { s with V := roundOf s.V (K s.T) s.WIN[15], STATE := .folding } := by
  rw [execRound, if_pos (by simp [State.lastRound, last])]

/-- ROUND before round 63 (R101). -/
theorem execRound_more {s : State} (more : s.T.toNat < 63) :
    execRound s = .next
      { s with V := roundOf s.V (K s.T) s.WIN[15], T := s.T + 1#6, STATE := .expandingSchedule } := by
  have notLast : s.T ≠ 63#6 := by bv_omega
  rw [execRound, if_neg (by simp [State.lastRound, notLast])]

/-- What the operation of the dispatch key does to a state, with the guard that selects it (R66, R70). -/
inductive InternalResult (s : State) : State → Prop
  | hold (h : s.busy = false ∨ s.suspended = true) : InternalResult s s
  | beginBlock (phase : s.STATE = .awaitingBlock) (more : s.NREM ≠ 0#32) :
      InternalResult s { s with V := s.H, WIN := Vector.replicate 16 0#32, T := 0#6, STATE := .expandingSchedule }
  | finish (phase : s.STATE = .awaitingBlock) (noMore : s.NREM = 0#32) (ready : s.pins.outReady = true) :
      InternalResult s { (s.record (.digest (pack8 s.H))).zeroData with STATE := .done }
  | schedLoad (phase : s.STATE = .expandingSchedule) (load : s.T.toNat < 16) (valid : s.pins.inValid = true) :
      InternalResult s { s.record (.word s.inTake) with WIN := shiftIn s.WIN s.inTake, STATE := .compressing }
  | underrun (phase : s.STATE = .expandingSchedule) (load : s.T.toNat < 16) (invalid : s.pins.inValid = false)
      (ended : s.pins.inEos = true) : InternalResult s (s.raiseCondition .inputUnderrun)
  | schedExpand (phase : s.STATE = .expandingSchedule) (expand : 16 ≤ s.T.toNat) :
      InternalResult s { s with WIN := shiftIn s.WIN (expandWord s.WIN), STATE := .compressing }
  | round (phase : s.STATE = .compressing) (more : s.T.toNat < 63) :
      InternalResult s { s with
        V := roundOf s.V (K s.T) s.WIN[15], T := s.T + 1#6, STATE := .expandingSchedule }
  | lastRound (phase : s.STATE = .compressing) (last : s.T = 63#6) :
      InternalResult s { s with V := roundOf s.V (K s.T) s.WIN[15], STATE := .folding }
  | fold (phase : s.STATE = .folding) :
      InternalResult s { s with H := add8 s.H s.V, NREM := s.NREM - 1#32, STATE := .awaitingBlock }

theorem busy_eq_false_iff (s : State) :
    s.busy = false ↔ s.STATE = .idle ∨ s.STATE = .done ∨ s.STATE = .failed := by
  unfold State.busy; cases s.STATE <;> simp

/-- In AwaitingBlock the operation is BEGIN_BLOCK, FINISH or WAIT_OUT. -/
theorem exec_internalOp_awaitingBlock {s : State} (phase : s.STATE = .awaitingBlock) :
    ∃ v, exec s.internalOp s = .next v ∧ InternalResult s v := by
  by_cases more : s.NREM = 0#32
  · cases ready : s.pins.outReady
    · refine ⟨s, by simp [State.internalOp, phase, State.noBlocksLeft, more, ready, exec, execWaitOut], .hold (.inr ?_)⟩
      simp [State.suspended, State.outValid, State.noBlocksLeft, phase, more, ready]
    · exact ⟨_, by simp [State.internalOp, phase, State.noBlocksLeft, more, ready, exec, execFinish],
        .finish phase more ready⟩
  · exact ⟨_, by simp [State.internalOp, phase, State.noBlocksLeft, more, exec, execBeginBlock],
      .beginBlock phase more⟩

/-- In ExpandingSchedule the operation is SCHED_LOAD, UNDERRUN, WAIT_IN or SCHED_EXPAND. -/
theorem exec_internalOp_expandingSchedule {s : State} (phase : s.STATE = .expandingSchedule) :
    ∃ v, exec s.internalOp s = .next v ∧ InternalResult s v := by
  by_cases load : s.T.toNat < 16
  · cases valid : s.pins.inValid
    · cases ended : s.pins.inEos
      · refine ⟨s, by simp [State.internalOp, phase, State.loadRound, load, valid, ended, exec, execWaitIn],
          .hold (.inr ?_)⟩
        simp [State.suspended, State.inReady, State.loadRound, phase, load, valid, ended]
      · exact ⟨_, by simp [State.internalOp, phase, State.loadRound, load, valid, ended, exec, execUnderrun],
          .underrun phase load valid ended⟩
    · exact ⟨_, by simp [State.internalOp, phase, State.loadRound, load, valid, exec, execSchedLoad],
        .schedLoad phase load valid⟩
  · exact ⟨_, by simp [State.internalOp, phase, State.loadRound, load, exec, execSchedExpand],
      .schedExpand phase (by omega)⟩

/-- In Compressing the operation is ROUND, with its two outcomes. -/
theorem exec_internalOp_compressing {s : State} (phase : s.STATE = .compressing) :
    ∃ v, exec s.internalOp s = .next v ∧ InternalResult s v := by
  by_cases last : s.T = 63#6
  · exact ⟨_, by rw [State.internalOp, phase]; exact execRound_last last, .lastRound phase last⟩
  · have more : s.T.toNat < 63 := by bv_omega
    exact ⟨_, by rw [State.internalOp, phase]; exact execRound_more more, .round phase more⟩

/-- The operation of the dispatch key answers a next state, the one of its case. -/
theorem exec_internalOp (s : State) : ∃ v, exec s.internalOp s = .next v ∧ InternalResult s v := by
  have rest (h : s.STATE = .idle ∨ s.STATE = .done ∨ s.STATE = .failed) : InternalResult s s :=
    .hold (.inl ((busy_eq_false_iff s).mpr h))
  cases phase : s.STATE
  case awaitingBlock => exact exec_internalOp_awaitingBlock phase
  case expandingSchedule => exact exec_internalOp_expandingSchedule phase
  case compressing => exact exec_internalOp_compressing phase
  case folding => exact ⟨_, by simp only [State.internalOp, phase, exec, execFold], .fold phase⟩
  case idle => exact ⟨s, by simp only [State.internalOp, phase, exec, execHoldIdle], rest (.inl phase)⟩
  case done => exact ⟨s, by simp only [State.internalOp, phase, exec, execHoldDone], rest (.inr (.inl phase))⟩
  case failed => exact ⟨s, by simp only [State.internalOp, phase, exec, execHoldFailed], rest (.inr (.inr phase))⟩

theorem afterNop_internalOp (s : State) : s.afterNop.internalOp = s.internalOp := by
  rcases afterNop_cases s with h | ⟨-, h⟩
  · rw [h]
  · rw [h]; rfl

/-! ### The step -/

/-- What a step leaves before the environment goes on, with the guard of each case, in the order of R70. -/
inductive StepResult (s : State) : State → Prop
  | reset (rst : s.pins.rst = true) : StepResult s { s.zeroData with STATE := .idle, ERR := .none }
  | cancelBusy (rst : s.pins.rst = false) (offered : s.cancelOffered = true) (busy : s.busy = true) :
      StepResult s ((s.record (.command s.pins.cmdWord)).raiseCondition .cancelled)
  | cancelRest (rst : s.pins.rst = false) (offered : s.cancelOffered = true) (rest : s.busy = false) :
      StepResult s (s.record (.command s.pins.cmdWord))
  | start (rst : s.pins.rst = false) (accepted : s.startAccepted = true) :
      StepResult s ((s.record (.command s.pins.cmdWord)).beginRun
        (commandSeed s.pins.cmdWord) (cmdNblocks s.pins.cmdWord))
  | internal (rst : s.pins.rst = false) (noCancel : s.cancelOffered = false) (noStart : s.startAccepted = false)
      {v : State} (run : InternalResult s.afterNop v) : StepResult s v

theorem step_of_selection {s v : State} {i : Instr} (hs : selection s = .ok (none, i)) (hv : exec i s = .next v) :
    step s = .next v.advance := by
  simp [step, hs, execAccepted, hv]

/-- Every step answers a next state (R126), the one of its case. -/
theorem step_result (s : State) : ∃ v, step s = .next v.advance ∧ StepResult s v := by
  cases rst : s.pins.rst
  case true => exact ⟨_, step_of_selection (selection_reset rst) rfl, .reset rst⟩
  case false =>
    cases offered : s.cancelOffered
    case true =>
      obtain ⟨-, op⟩ := (cancelOffered_iff s).mp offered
      refine ⟨_, step_of_selection (selection_command rst (by simp [offered])) (exec_decodeCmd_cancel op s), ?_⟩
      cases busy : s.busy
      · exact .cancelRest rst offered busy
      · exact .cancelBusy rst offered busy
    case false =>
      cases accepted : s.startAccepted
      case true =>
        obtain ⟨-, op, rest⟩ := (startAccepted_iff s).mp accepted
        exact ⟨_, step_of_selection (selection_command rst (by simp [accepted])) (exec_decodeCmd_start op rest),
          .start rst accepted⟩
      case false =>
        obtain ⟨v, hv, run⟩ := exec_internalOp s.afterNop
        rw [afterNop_internalOp] at hv
        refine ⟨v, ?_, .internal rst offered accepted run⟩
        rw [step_internal rst offered accepted (decode_dispatchKey_internalOp s), hv, andThen_next]

/-- Inversion of `step` by its cases. -/
theorem stepResult_of_step {s t : State} (h : step s = .next t) : ∃ v, StepResult s v ∧ t = v.advance := by
  obtain ⟨v, hv, result⟩ := step_result s
  exact ⟨v, result, by simpa [hv, eq_comm] using h⟩

end Sys2Proof.Machine
end

