-- ==== Sys2Proof/Proofs/StateInvariants.lean ====
section
/-!
PROOFS. The invariants of R36 items 1 to 4 hold in the reset state, every step keeps them, and the operations selected in
a state that meets them are well-formed.
-/
namespace Sys2Proof.Machine

/-! ### What the invariants look at -/

/-- The invariants of R36 are about the registers alone. -/
theorem inv_of_sameRegisters {s t : State} (same : SameRegisters s t) (h : s.Inv) : t.Inv := by
  obtain ⟨hH, hV, hWIN, hT, hNREM, hSTATE, hERR⟩ := same
  obtain ⟨err, rest, nrem, folding, awaiting⟩ := h
  have hbusy : t.busy = s.busy := by rw [State.busy, State.busy, hSTATE]
  constructor
  · rwa [hERR, hSTATE]
  · rwa [hbusy, State.Cleared, hH, hV, hWIN, hT, hNREM]
  · rwa [hSTATE, hNREM]
  · rwa [hSTATE, hT]
  · rwa [hSTATE, hT]

theorem sameRegisters_record (e : Event) (s : State) : SameRegisters s (s.record e) :=
  ⟨rfl, rfl, rfl, rfl, rfl, rfl, rfl⟩

theorem sameRegisters_advance (s : State) : SameRegisters s s.advance := ⟨rfl, rfl, rfl, rfl, rfl, rfl, rfl⟩

theorem sameRegisters_afterNop (s : State) : SameRegisters s s.afterNop := by
  rcases afterNop_cases s with h | ⟨-, h⟩
  · rw [h]; exact ⟨rfl, rfl, rfl, rfl, rfl, rfl, rfl⟩
  · rw [h]; exact sameRegisters_record _ s

/-- Item 1 while busy: no error is recorded. -/
theorem State.Inv.err_none {s : State} (h : s.Inv) (notFailed : s.STATE ≠ .failed) : s.ERR = .none :=
  not_not.mp fun err => notFailed (h.err_iff_failed.mp err)

/-! ### States that meet the invariants, by controller state -/

/-- A rest state with cleared data meets the invariants when its error agrees with it. -/
theorem inv_of_cleared {s : State} (rest : s.busy = false) (cleared : s.Cleared)
    (err : s.ERR ≠ .none ↔ s.STATE = .failed) : s.Inv where
  err_iff_failed := err
  rest_cleared _ := cleared
  in_block_nrem phase := by
    rcases phase with phase | phase | phase <;> simp [State.busy, phase] at rest
  folding_t phase := by simp [State.busy, phase] at rest
  awaiting_t phase := by simp [State.busy, phase] at rest

/-- AwaitingBlock asks for no error and for `T` at one of its two values. -/
theorem inv_of_awaitingBlock {s : State} (phase : s.STATE = .awaitingBlock) (err : s.ERR = .none)
    (t : s.T = 0#6 ∨ s.T = 63#6) : s.Inv where
  err_iff_failed := by simp [phase, err]
  rest_cleared rest := by simp [State.busy, phase] at rest
  in_block_nrem inBlock := by simp [phase] at inBlock
  folding_t folding := by simp [phase] at folding
  awaiting_t _ := t

/-- The controller states within a block (R36 item 3). -/
def Phase.inBlock (ph : Phase) : Prop := ph = .expandingSchedule ∨ ph = .compressing ∨ ph = .folding

/-- Within a block the invariants ask for no error, for a block to be counted, and in Folding for `T` at 63. -/
theorem inv_of_inBlock {s : State} (phase : s.STATE.inBlock) (err : s.ERR = .none) (nrem : s.NREM ≠ 0#32)
    (t : s.STATE = .folding → s.T = 63#6) : s.Inv where
  err_iff_failed := by rcases phase with phase | phase | phase <;> simp [phase, err]
  rest_cleared rest := by rcases phase with phase | phase | phase <;> simp [State.busy, phase] at rest
  in_block_nrem _ := nrem
  folding_t := t
  awaiting_t awaiting := by rcases phase with phase | phase | phase <;> simp [phase] at awaiting

theorem inv_raiseCondition (s : State) {c : ErrCode} (hc : c ≠ .none) : (s.raiseCondition c).Inv :=
  inv_of_cleared rfl ⟨rfl, rfl, rfl, rfl, rfl⟩ (iff_of_true hc rfl)

/-! ### Every step keeps the invariants -/

theorem internalResult_inv {s v : State} (h : s.Inv) (run : InternalResult s v) : v.Inv := by
  have err (ph : Phase) (phase : s.STATE = ph) (hph : ph ≠ .failed) : s.ERR = .none :=
    h.err_none (phase ▸ hph)
  cases run with
  | hold => exact h
  | beginBlock phase more => exact inv_of_inBlock (.inl rfl) (err _ phase nofun) more nofun
  | finish phase =>
    exact inv_of_cleared rfl ⟨rfl, rfl, rfl, rfl, rfl⟩ (iff_of_false (not_not.mpr (err _ phase nofun)) nofun)
  | schedLoad phase =>
    exact inv_of_inBlock (.inr (.inl rfl)) (err _ phase nofun) (h.in_block_nrem (.inl phase)) nofun
  | underrun => exact inv_raiseCondition s nofun
  | schedExpand phase =>
    exact inv_of_inBlock (.inr (.inl rfl)) (err _ phase nofun) (h.in_block_nrem (.inl phase)) nofun
  | round phase => exact inv_of_inBlock (.inl rfl) (err _ phase nofun) (h.in_block_nrem (.inr (.inl phase))) nofun
  | lastRound phase last =>
    exact inv_of_inBlock (.inr (.inr rfl)) (err _ phase nofun) (h.in_block_nrem (.inr (.inl phase))) fun _ => last
  | fold phase => exact inv_of_awaitingBlock rfl (err _ phase nofun) (.inr (h.folding_t phase))

theorem stepResult_inv {s v : State} (h : s.Inv) (result : StepResult s v) : v.Inv := by
  cases result with
  | reset => exact inv_of_cleared rfl ⟨rfl, rfl, rfl, rfl, rfl⟩ (iff_of_false (not_not.mpr rfl) nofun)
  | cancelBusy => exact inv_raiseCondition _ nofun
  | cancelRest => exact inv_of_sameRegisters (sameRegisters_record _ s) h
  | start => exact inv_of_awaitingBlock rfl rfl (.inl rfl)
  | internal _ _ _ run => exact internalResult_inv (inv_of_sameRegisters (sameRegisters_afterNop s) h) run

/-- Settles O32, by the cases of a step. -/
theorem stepKeepsTheStateInvariants : Obligations.StepKeepsTheStateInvariants := by
  intro s t h hstep
  obtain ⟨v, result, rfl⟩ := stepResult_of_step hstep
  exact inv_of_sameRegisters (sameRegisters_advance v) (stepResult_inv h result)

/-! ### The reset state -/

theorem reset_inv : State.reset.Inv :=
  inv_of_cleared rfl ⟨rfl, rfl, rfl, rfl, rfl⟩ (iff_of_false (not_not.mpr rfl) nofun)

/-- Settles O31: every datum of the reset state is zero, and in Idle faithfulness asks nothing. -/
theorem resetStateMeetsTheInvariants : Obligations.ResetStateMeetsTheInvariants := by
  refine ⟨⟨rfl, rfl, ?_, ?_, ?_, rfl, rfl⟩, reset_inv, trivial⟩
  all_goals exact fun i => Vector.getElem_replicate i.isLt

/-! ### The selected operations are well-formed -/

@[simp] theorem decodeCmd_wellFormed (w : CmdWord) : (decodeCmd w).wellFormed = true := by
  unfold decodeCmd; split_ifs <;> rfl

/-- In a rest state both counters are zero (R36 item 2), as the key of a hold must say. -/
theorem rest_key {s : State} (h : s.Inv) (rest : s.busy = false) : s.noBlocksLeft = true ∧ s.loadRound = true := by
  obtain ⟨-, -, -, t, nrem⟩ := h.rest_cleared rest
  simp [State.noBlocksLeft, State.loadRound, t, nrem]

/-- Within a block a block is counted (R36 item 3). -/
theorem inBlock_key {s : State} (h : s.Inv) (phase : s.STATE.inBlock) : s.noBlocksLeft = false :=
  beq_eq_false_iff_ne.mpr (h.in_block_nrem phase)

theorem internalOp_wellFormed {s : State} (h : s.Inv) : s.internalOp.wellFormed = true := by
  cases phase : s.STATE
  case idle | done | failed =>
    obtain ⟨nrem, t⟩ := rest_key h (by simp [State.busy, phase])
    simp [State.internalOp, phase, Instr.wellFormed, nrem, t]
  case awaitingBlock =>
    simp only [State.internalOp, phase]
    split_ifs <;> rfl
  case expandingSchedule =>
    have nrem := inBlock_key h (.inl phase)
    simp only [State.internalOp, phase]
    split_ifs <;> simp [Instr.wellFormed, nrem]
  case compressing =>
    simp [State.internalOp, phase, Instr.wellFormed, inBlock_key h (.inr (.inl phase))]
  case folding =>
    simp [State.internalOp, phase, Instr.wellFormed, inBlock_key h (.inr (.inr phase)), State.loadRound,
      h.folding_t phase]

/-- Settles O7: RESET and commands are always well-formed; the internal operation is by R36. -/
theorem selectedOperationWellFormed : Obligations.SelectedOperationWellFormed := by
  intro s n i h hsel
  cases rst : s.pins.rst
  case true =>
    obtain ⟨rfl, rfl⟩ : none = n ∧ Instr.reset = i := by simpa [selection_reset rst] using hsel
    exact ⟨rfl, nofun⟩
  case false =>
    cases cmd : s.cancelOffered || s.startAccepted
    case true =>
      obtain ⟨rfl, rfl⟩ : none = n ∧ decodeCmd s.pins.cmdWord = i := by
        simpa [selection_command rst cmd] using hsel
      exact ⟨decodeCmd_wellFormed _, nofun⟩
    case false =>
      obtain ⟨rfl, rfl⟩ : (if s.nopOffered then some (decodeCmd s.pins.cmdWord) else none) = n ∧ s.internalOp = i := by
        simpa [selection_internal rst cmd] using hsel
      refine ⟨internalOp_wellFormed h, fun m hm => ?_⟩
      obtain ⟨-, rfl⟩ : s.nopOffered = true ∧ decodeCmd s.pins.cmdWord = m := by simpa using hm
      exact decodeCmd_wellFormed _

end Sys2Proof.Machine
end

