-- ==== Sys2Proof/Proofs/Faithful.lean ====
section
/-!
PROOFS. Every step keeps the tie between the registers and the transfers of the current computation (R36 item 6, R55,
R87, R106, R115). The tie of the chain, the rounds and the window to the Words taken is first shown to outlive one more
Word; then the cases of a step are gone through.
-/
namespace Sys2Proof.Machine

/-! ### One more Word in the stream -/

/-- A Word appended leaves the Words of the stream before it. -/
theorem blockAt_append_get (ws : List Word) (x : Word) (j : Nat) (i : Fin 16) (h : 16 * j + i.val < ws.length) :
    (blockAt (ws ++ [x]) j)[i] = (blockAt ws j)[i] := by
  rw [blockAt_get, blockAt_get, List.getD_append _ _ _ _ h]

/-- Whole blocks of the stream are not changed by an appended Word. -/
theorem blocksOf_append (ws : List Word) (x : Word) (n : Nat) (h : 16 * n ≤ ws.length) :
    blocksOf (ws ++ [x]) n = blocksOf ws n := by
  refine List.map_congr_left fun j hj => words16_eq fun i => blockAt_append_get ws x j i ?_
  have := List.mem_range.mp hj
  omega

theorem blocksOf_succ (ws : List Word) (n : Nat) : blocksOf ws (n + 1) = blocksOf ws n ++ [blockAt ws n] := by
  simp [blocksOf, List.range_succ]

/-- The schedule Words of a block that are input Words, below the one being taken, are not changed by it. -/
theorem sched_blockAt_append {ws : List Word} {x : Word} {n t : Nat} (hlen : ws.length = 16 * n + t) (ht : t < 16)
    {j : Nat} (hj : j < t) : sched (blockAt (ws ++ [x]) n) j = sched (blockAt ws n) j := by
  have hj' : j < 16 := by omega
  calc sched (blockAt (ws ++ [x]) n) j
      = (blockAt (ws ++ [x]) n)[j] := sched_input _ ⟨j, hj'⟩
    _ = (blockAt ws n)[j] := blockAt_append_get ws x n ⟨j, hj'⟩ (by simp only; omega)
    _ = sched (blockAt ws n) j := (sched_input _ ⟨j, hj'⟩).symm

/-- The Word being taken is the schedule Word of its round (R85, R89). -/
theorem sched_blockAt_taken {ws : List Word} {x : Word} {n t : Nat} (hlen : ws.length = 16 * n + t) (ht : t < 16) :
    sched (blockAt (ws ++ [x]) n) t = x := by
  have hin := sched_input (blockAt (ws ++ [x]) n) ⟨t, ht⟩
  rw [blockAt_get] at hin
  rw [hin, ← hlen, List.getD_append_right _ _ _ _ le_rfl, Nat.sub_self]
  rfl

/-! ### The chain -/

theorem chain_eq_foldl (seed : Words8) (Ms : List Words16) : chain seed Ms = Ms.foldl compress seed := by
  induction Ms generalizing seed with
  | nil => rfl
  | cons M Ms ih => exact ih (compress seed M)

/-- One more block at the end of the chain is one more compression (R115, R116). -/
theorem chain_concat (seed : Words8) (Ms : List Words16) (M : Words16) :
    chain seed (Ms ++ [M]) = compress (chain seed Ms) M := by
  rw [chain_eq_foldl, chain_eq_foldl, List.foldl_append]; rfl

/-! ### The window -/

/-- An empty window holds every schedule: no Word below `W[0]` is asked for. -/
theorem windowHolds_zero (win M : Words16) : windowHolds win M 0 := fun i h => absurd h (by omega)

/-- The newest Word of a window is the latest schedule Word. -/
theorem windowHolds_newest {win M : Words16} {t : Nat} (h : windowHolds win M (t + 1)) : win[15] = sched M t :=
  h 15 (by simp)

/-- Shifting in the schedule Word of round `t` moves the window on by one (R84, R87). The block's earlier schedule Words
may be those of a block that agrees below `t`. -/
theorem windowHolds_shiftIn {win M M' : Words16} {w : Word} {t : Nat} (h : windowHolds win M t)
    (agree : ∀ j < t, sched M' j = sched M j) (hw : w = sched M' t) :
    windowHolds (shiftIn win w) M' (t + 1) := by
  intro i hi
  rcases Nat.lt_or_ge i.val 15 with older | newest
  · have moved := shiftIn_get win w ⟨i.val, older⟩
    have held := h ⟨i.val + 1, by omega⟩ (by simp only; omega)
    have index : t + 1 + i.val - 16 = t + (i.val + 1) - 16 := by omega
    rw [index, agree _ (by omega)]
    exact moved.trans held
  · obtain rfl : i = 15 := Fin.ext (Nat.le_antisymm (Nat.le_of_lt_succ i.isLt) newest)
    exact (shiftIn_last win w).trans hw

/-- From round 16 on the window gives the next schedule Word (R86, R88, R89). -/
theorem expandWord_eq_sched {win M : Words16} {t : Nat} (h : windowHolds win M t) (ht : 16 ≤ t) :
    expandWord win = sched M t := by
  obtain ⟨n, rfl⟩ : ∃ n, t = n + 16 := ⟨t - 16, by omega⟩
  have at14 : win[14] = sched M (n + 14) := h 14 (by simp)
  have at9 : win[9] = sched M (n + 9) := h 9 (by simp)
  have at1 : win[1] = sched M (n + 1) := h 1 (by simp)
  have at0 : win[0] = sched M n := h 0 (by simp)
  rw [expandWord, sched_step, at14, at9, at1, at0]

/-! ### The computation of a trace -/

theorem currentRun_append (tr : List Event) (e : Event) :
    currentRun (tr ++ [e]) = Run.extend (currentRun tr) e := by
  simp [currentRun]

/-- A command that begins nothing leaves the computation. -/
theorem currentRun_command {w : CmdWord} (op : cmdOp w = opNop ∨ cmdOp w = opCancel) (tr : List Event) :
    currentRun (tr ++ [.command w]) = currentRun tr := by
  obtain ⟨notStart, notSeeded⟩ : cmdOp w ≠ opStart ∧ cmdOp w ≠ opStartSeeded := by
    rcases op with op | op <;> rw [op] <;> decide
  rw [currentRun_append, Run.extend, if_neg notStart, if_neg notSeeded]

/-- A START or START_SEEDED begins a computation (R127, R128). -/
theorem currentRun_start {w : CmdWord} (op : cmdOp w = opStart ∨ cmdOp w = opStartSeeded) (tr : List Event) :
    currentRun (tr ++ [.command w]) = some ⟨commandSeed w, cmdNblocks w, [], []⟩ := by
  rw [currentRun_append, Run.extend, commandSeed]
  rcases op with op | op
  · rw [if_pos op, if_pos op]
  · have notStart : cmdOp w ≠ opStart := by rw [op]; decide
    rw [if_neg notStart, if_pos op, if_neg notStart]

theorem currentRun_word {tr : List Event} {r : Run} (hr : currentRun tr = some r) (x : Word) :
    currentRun (tr ++ [.word x]) = some { r with words := r.words ++ [x] } := by
  rw [currentRun_append, hr]; rfl

theorem currentRun_digest {tr : List Event} {r : Run} (hr : currentRun tr = some r) (d : Digest) :
    currentRun (tr ++ [.digest d]) = some { r with digests := r.digests ++ [d] } := by
  rw [currentRun_append, hr]; rfl

/-! ### What faithfulness looks at -/

theorem busyWith_of_sameRegisters {s t : State} {r : Run} (same : SameRegisters s t) (h : s.BusyWith r) :
    t.BusyWith r := by
  obtain ⟨hH, hV, hWIN, hT, hNREM, hSTATE, -⟩ := same
  have folded : blocksFolded r t = blocksFolded r s := by rw [blocksFolded, blocksFolded, hNREM]
  obtain ⟨noDigest, bound, chained, awaiting, expanding, compressing, folding⟩ := h
  constructor
  · exact noDigest
  · rwa [hNREM]
  · rwa [hH, folded]
  · rwa [hSTATE, folded]
  · rwa [hSTATE, openBlock, folded, hH, hV, hWIN, hT]
  · rwa [hSTATE, openBlock, folded, hH, hV, hWIN, hT]
  · rwa [hSTATE, openBlock, folded, hH, hV]

theorem faithful_iff_of_busy {s : State} (busy : s.busy = true) :
    s.Faithful ↔ ∃ r, currentRun s.trace = some r ∧ s.BusyWith r := by
  unfold State.Faithful
  unfold State.busy at busy
  cases phase : s.STATE <;> simp_all

/-- Faithfulness is about the registers and the computation of the trace. -/
theorem faithful_of_same {s t : State} (same : SameRegisters s t) (run : currentRun t.trace = currentRun s.trace)
    (h : s.Faithful) : t.Faithful := by
  have hSTATE : t.STATE = s.STATE := by obtain ⟨-, -, -, -, -, hSTATE, -⟩ := same; exact hSTATE
  cases busy : s.busy
  · unfold State.Faithful at h ⊢
    rcases (busy_eq_false_iff s).mp busy with phase | phase | phase <;> simp_all
  · have busy' : t.busy = true := by rw [State.busy, hSTATE]; exact busy
    obtain ⟨r, hr, hbusy⟩ := (faithful_iff_of_busy busy).mp h
    exact (faithful_iff_of_busy busy').mpr ⟨r, run.trans hr, busyWith_of_sameRegisters same hbusy⟩

/-! ### The operations of a busy CORE keep the tie -/

section
variable {s : State} {r : Run}

/-- A computation just begun has folded no block and taken no Word. -/
theorem busyWith_beginRun (s : State) (seed : Words8) (n : BlockCount) :
    (s.beginRun seed n).BusyWith ⟨seed, n, [], []⟩ := by
  have noneFolded : blocksFolded ⟨seed, n, [], []⟩ (s.beginRun seed n) = 0 := Nat.sub_self _
  refine ⟨rfl, le_rfl, ?_, fun _ => ?_, nofun, nofun, nofun⟩ <;> rw [noneFolded] <;> rfl

theorem busyWith_beginBlock (h : s.BusyWith r) (phase : s.STATE = .awaitingBlock) :
    State.BusyWith { s with V := s.H, WIN := Vector.replicate 16 0#32, T := 0#6, STATE := .expandingSchedule } r where
  no_digest := h.no_digest
  count_bound := h.count_bound
  chained := h.chained
  awaiting := nofun
  expanding _ := ⟨h.awaiting phase, rfl, windowHolds_zero _ _⟩
  compressing := nofun
  folding := nofun

/-- SCHED_LOAD takes the schedule Word of its round into the stream and into the window. -/
theorem busyWith_schedLoad (h : s.BusyWith r) (phase : s.STATE = .expandingSchedule) (load : s.T.toNat < 16)
    (x : Word) :
    State.BusyWith { s.record (.word x) with WIN := shiftIn s.WIN x, STATE := .compressing }
      { r with words := r.words ++ [x] } := by
  obtain ⟨hlen, hV, hwin⟩ := h.expanding phase
  rw [Nat.min_eq_left load.le] at hlen
  have agree (j : Nat) (hj : j < s.T.toNat) := sched_blockAt_append (x := x) hlen load hj
  exact {
    no_digest := h.no_digest
    count_bound := h.count_bound
    chained := h.chained.trans (congrArg (chain r.seed) (blocksOf_append _ _ _ (by omega)).symm)
    awaiting := nofun
    expanding := nofun
    compressing := fun _ => by
      refine ⟨?_, hV.trans (roundsTo_congr _ _ _ _ fun j hj => (agree j hj).symm), ?_⟩
      · rw [List.length_append, hlen, List.length_singleton]
        exact (congrArg (_ + ·) (Nat.min_eq_left load).symm)
      · exact windowHolds_shiftIn hwin agree (sched_blockAt_taken hlen load).symm
    folding := nofun }

theorem busyWith_schedExpand (h : s.BusyWith r) (phase : s.STATE = .expandingSchedule) (expand : 16 ≤ s.T.toNat) :
    State.BusyWith { s with WIN := shiftIn s.WIN (expandWord s.WIN), STATE := .compressing } r := by
  obtain ⟨hlen, hV, hwin⟩ := h.expanding phase
  have taken : min s.T.toNat 16 = min (s.T.toNat + 1) 16 := by omega
  exact {
    no_digest := h.no_digest
    count_bound := h.count_bound
    chained := h.chained
    awaiting := nofun
    expanding := nofun
    compressing := fun _ =>
      ⟨taken ▸ hlen, hV, windowHolds_shiftIn hwin (fun _ _ => rfl) (expandWord_eq_sched hwin expand)⟩
    folding := nofun }

/-- ROUND makes the round of R106, the window's newest Word being the schedule Word of the round (R87). -/
theorem roundOf_of_busyWith (h : s.BusyWith r) (phase : s.STATE = .compressing) :
    roundOf s.V (K s.T) s.WIN[15] = roundsTo s.H (openBlock r s) (s.T.toNat + 1) := by
  obtain ⟨-, hV, hwin⟩ := h.compressing phase
  rw [roundsTo_succ, ← hV, windowHolds_newest hwin, BitVec.ofNat_toNat, BitVec.setWidth_eq]

theorem busyWith_round (h : s.BusyWith r) (phase : s.STATE = .compressing) (more : s.T.toNat < 63) :
    State.BusyWith { s with
      V := roundOf s.V (K s.T) s.WIN[15], T := s.T + 1#6, STATE := .expandingSchedule } r := by
  obtain ⟨hlen, -, hwin⟩ := h.compressing phase
  have next : (s.T + 1#6).toNat = s.T.toNat + 1 := by bv_omega
  exact {
    no_digest := h.no_digest
    count_bound := h.count_bound
    chained := h.chained
    awaiting := nofun
    expanding := fun _ => by
      simp only [next]
      exact ⟨hlen, roundOf_of_busyWith h phase, hwin⟩
    compressing := nofun
    folding := nofun }

theorem busyWith_lastRound (h : s.BusyWith r) (phase : s.STATE = .compressing) (last : s.T = 63#6) :
    State.BusyWith { s with V := roundOf s.V (K s.T) s.WIN[15], STATE := .folding } r := by
  obtain ⟨hlen, -, -⟩ := h.compressing phase
  have rounds := roundOf_of_busyWith h phase
  rw [last] at hlen
  rw [last] at rounds
  exact {
    no_digest := h.no_digest
    count_bound := h.count_bound
    chained := h.chained
    awaiting := nofun
    expanding := nofun
    compressing := nofun
    folding := fun _ => ⟨hlen, last ▸ rounds⟩ }

/-- FOLD ends a block: it is one more of the chain's (R113, R115, R116). -/
theorem busyWith_fold (h : s.BusyWith r) (phase : s.STATE = .folding) (nrem : s.NREM ≠ 0#32) :
    State.BusyWith { s with H := add8 s.H s.V, NREM := s.NREM - 1#32, STATE := .awaitingBlock } r := by
  obtain ⟨hlen, hV⟩ := h.folding phase
  have bound := h.count_bound
  have countDown : (s.NREM - 1#32).toNat + 1 = s.NREM.toNat := by bv_omega
  have oneMore : r.count.toNat - (s.NREM - 1#32).toNat = blocksFolded r s + 1 := by
    unfold blocksFolded; omega
  have compressed : add8 s.H s.V = compress s.H (openBlock r s) := by rw [hV, compress]
  refine ⟨h.no_digest, ?_, ?_, fun _ => ?_, nofun, nofun, nofun⟩
  · simp only; omega
  · show add8 s.H s.V = chain r.seed (blocksOf r.words (r.count.toNat - (s.NREM - 1#32).toNat))
    rw [oneMore, blocksOf_succ, chain_concat, ← h.chained, compressed, openBlock]
  · show r.words.length = 16 * (r.count.toNat - (s.NREM - 1#32).toNat)
    rw [oneMore, hlen]

/-- FINISH hands over the chain over all blocks, and every Word of them has been taken (R117). -/
theorem completed_of_finish (h : s.BusyWith r) (phase : s.STATE = .awaitingBlock) (noMore : s.NREM = 0#32) :
    Run.Completed { r with digests := r.digests ++ [pack8 s.H] } := by
  have all : blocksFolded r s = r.count.toNat := by simp [blocksFolded, noMore]
  constructor
  · simpa only [all] using h.awaiting phase
  · simp only [h.no_digest, h.chained, all, List.nil_append]

end

/-! ### Every step keeps the tie -/

theorem internalResult_faithful {s v : State} (inv : s.Inv) (h : s.Faithful) (run : InternalResult s v) :
    v.Faithful := by
  have busyRun (ph : Phase) (phase : s.STATE = ph) (hph : ph ≠ .idle ∧ ph ≠ .done ∧ ph ≠ .failed) :
      ∃ r, currentRun s.trace = some r ∧ s.BusyWith r := by
    refine (faithful_iff_of_busy (Bool.eq_true_of_not_eq_false fun rest => ?_)).mp h
    have := (busy_eq_false_iff s).mp rest
    simp_all
  cases run with
  | hold => exact h
  | beginBlock phase =>
    obtain ⟨r, hr, hbusy⟩ := busyRun _ phase (by decide)
    exact ⟨r, hr, busyWith_beginBlock hbusy phase⟩
  | finish phase noMore =>
    obtain ⟨r, hr, hbusy⟩ := busyRun _ phase (by decide)
    exact ⟨_, currentRun_digest hr _, completed_of_finish hbusy phase noMore⟩
  | schedLoad phase load =>
    obtain ⟨r, hr, hbusy⟩ := busyRun _ phase (by decide)
    exact ⟨_, currentRun_word hr _, busyWith_schedLoad hbusy phase load _⟩
  | underrun phase =>
    obtain ⟨r, hr, hbusy⟩ := busyRun _ phase (by decide)
    intro r' hr'
    obtain rfl : r = r' := Option.some.inj (hr.symm.trans hr')
    exact hbusy.no_digest
  | schedExpand phase expand =>
    obtain ⟨r, hr, hbusy⟩ := busyRun _ phase (by decide)
    exact ⟨r, hr, busyWith_schedExpand hbusy phase expand⟩
  | round phase more =>
    obtain ⟨r, hr, hbusy⟩ := busyRun _ phase (by decide)
    exact ⟨r, hr, busyWith_round hbusy phase more⟩
  | lastRound phase last =>
    obtain ⟨r, hr, hbusy⟩ := busyRun _ phase (by decide)
    exact ⟨r, hr, busyWith_lastRound hbusy phase last⟩
  | fold phase =>
    obtain ⟨r, hr, hbusy⟩ := busyRun _ phase (by decide)
    exact ⟨r, hr, busyWith_fold hbusy phase (inv.in_block_nrem (.inr (.inr phase)))⟩

theorem afterNop_faithful {s : State} (h : s.Faithful) : s.afterNop.Faithful := by
  rcases afterNop_cases s with unchanged | ⟨op, nop⟩
  · rwa [unchanged]
  · rw [nop]
    exact faithful_of_same (sameRegisters_record _ s) (currentRun_command (.inl op) _) h

theorem stepResult_faithful {s v : State} (inv : s.Inv) (h : s.Faithful) (result : StepResult s v) :
    v.Faithful := by
  cases result with
  | reset => trivial
  | cancelBusy _ offered busy =>
    obtain ⟨-, op⟩ := (cancelOffered_iff s).mp offered
    obtain ⟨r, hr, hbusy⟩ := (faithful_iff_of_busy busy).mp h
    intro r' hr'
    obtain rfl : r = r' := Option.some.inj (hr.symm.trans ((currentRun_command (.inr op) _).symm.trans hr'))
    exact hbusy.no_digest
  | cancelRest _ offered =>
    obtain ⟨-, op⟩ := (cancelOffered_iff s).mp offered
    exact faithful_of_same (sameRegisters_record _ s) (currentRun_command (.inr op) _) h
  | start _ accepted =>
    obtain ⟨-, op, -⟩ := (startAccepted_iff s).mp accepted
    exact ⟨_, currentRun_start op _, busyWith_beginRun _ _ _⟩
  | internal _ _ _ run =>
    exact internalResult_faithful (inv_of_sameRegisters (sameRegisters_afterNop s) inv) (afterNop_faithful h) run

/-- Settles O33, by the cases of a step. -/
theorem stepKeepsRegistersFaithful : Obligations.StepKeepsRegistersFaithful := by
  intro s t inv h hstep
  obtain ⟨v, result, rfl⟩ := stepResult_of_step hstep
  exact faithful_of_same (sameRegisters_advance v) rfl (stepResult_faithful inv h result)

/-! ### Every reachable state -/

/-- From a good state no number of steps stops, and it ends in a good state. -/
theorem steps_keep_inv_faithful (n : Nat) (s : State) (inv : s.Inv) (h : s.Faithful) :
    ∃ t, steps n s = .next t ∧ t.Inv ∧ t.Faithful := by
  induction n generalizing s with
  | zero => exact ⟨s, rfl, inv, h⟩
  | succ n ih =>
    obtain ⟨v, hstep, -⟩ := step_result s
    rw [steps, hstep, andThen_next]
    exact ih _ (stepKeepsTheStateInvariants s _ inv hstep) (stepKeepsRegistersFaithful s _ inv h hstep)

/-- Settles O35: the reset state is good whatever the environment will do. -/
theorem everyReachableStateIsFaithful : Obligations.EveryReachableStateIsFaithful := by
  intro n env
  have same : SameRegisters State.reset { State.reset with script := env } := ⟨rfl, rfl, rfl, rfl, rfl, rfl, rfl⟩
  exact steps_keep_inv_faithful n _ (inv_of_sameRegisters same reset_inv) trivial

end Sys2Proof.Machine
end

