-- ==== Sys2Proof/Proofs/Record.lean ====
section
/-!
PROOFS. The record of transfers is written and never read (log 3): with another record, the same operation is selected,
does the same to the registers and adds the same transfers.
-/
namespace Sys2Proof.Machine

/-- The state with another record of past transfers. -/
def State.withTrace (tr : List Event) (s : State) : State := { s with trace := tr }

theorem selection_withTrace (tr : List Event) (s : State) : selection (s.withTrace tr) = selection s := rfl

/-- From `s` the run `f` reaches `v`, and with any other record it does the same and adds the same transfers. -/
def BlindToTrace (f : State → Host.Outcome State Fault Refusal) (s v : State) : Prop :=
  ∃ es, v.trace = s.trace ++ es ∧ ∀ tr, f (s.withTrace tr) = .next (v.withTrace (tr ++ es))

/-- Runs that transfer nothing. -/
theorem blindToTrace_of_silent {f : State → Host.Outcome State Fault Refusal} {s v : State}
    (silent : v.trace = s.trace) (other : ∀ tr, f (s.withTrace tr) = .next (v.withTrace tr)) : BlindToTrace f s v :=
  ⟨[], by rw [silent, List.append_nil], fun tr => by rw [other, List.append_nil]⟩

theorem exec_blindToTrace {i : Instr} {s v : State} (h : exec i s = .next v) : BlindToTrace (exec i) s v := by
  cases i
  case start =>
    obtain ⟨busy, rfl⟩ | ⟨rest, rfl⟩ := exec_start_cases h
    · exact blindToTrace_of_silent rfl fun _ => if_pos busy
    · exact ⟨_, rfl, fun _ => if_neg (Bool.eq_false_iff.mp rest)⟩
  case startSeeded =>
    obtain ⟨busy, rfl⟩ | ⟨rest, rfl⟩ := exec_startSeeded_cases h
    · exact blindToTrace_of_silent rfl fun _ => if_pos busy
    · exact ⟨_, rfl, fun _ => if_neg (Bool.eq_false_iff.mp rest)⟩
  case cancel =>
    obtain ⟨busy, rfl⟩ | ⟨rest, rfl⟩ := exec_cancel_cases h
    · exact ⟨_, rfl, fun _ => if_pos busy⟩
    · exact ⟨_, rfl, fun _ => if_neg (Bool.eq_false_iff.mp rest)⟩
  case round =>
    obtain ⟨last, rfl⟩ | ⟨more, rfl⟩ := execRound_cases h
    · exact blindToTrace_of_silent rfl fun _ => if_pos last
    · exact blindToTrace_of_silent rfl fun _ => if_neg (Bool.eq_false_iff.mp more)
  case nop | finish | schedLoad => cases h; exact ⟨_, rfl, fun _ => rfl⟩
  case reset | beginBlock | waitOut | underrun | waitIn | schedExpand | fold | holdIdle | holdDone | holdFailed =>
    cases h; exact blindToTrace_of_silent rfl fun _ => rfl

theorem execAccepted_blindToTrace {n : Option Instr} {s v : State} (h : execAccepted n s = .next v) :
    BlindToTrace (execAccepted n) s v := by
  cases n with
  | none => cases h; exact blindToTrace_of_silent rfl fun _ => rfl
  | some i => exact exec_blindToTrace h

theorem step_blindToTrace {s t : State} (h : step s = .next t) : BlindToTrace step s t := by
  obtain ⟨n, i, u, v, hsel, hu, hv, rfl⟩ := step_inversion h
  obtain ⟨es, trace_u, other_u⟩ := execAccepted_blindToTrace hu
  obtain ⟨fs, trace_v, other_v⟩ := exec_blindToTrace hv
  refine ⟨es ++ fs, by rw [advance_trace, trace_v, trace_u, List.append_assoc], fun tr => ?_⟩
  rw [step, selection_withTrace, hsel]
  simp only [other_u, other_v, andThen_next, List.append_assoc]
  rfl

/-- Settles O11: the step is total, and blind to the record. -/
theorem recordIsNeverRead : Obligations.RecordIsNeverRead := by
  intro s tr
  obtain ⟨v, hstep, -⟩ := step_result s
  obtain ⟨es, trace, other⟩ := step_blindToTrace hstep
  exact ⟨_, _, es, hstep, other tr, ⟨rfl, rfl, rfl, rfl, rfl, rfl, rfl⟩, rfl, rfl, trace, rfl⟩

end Sys2Proof.Machine
end

