-- ==== Sys2Proof/Proofs/RegisterChanges.lean ====
section
/-!
PROOFS. Which operations move the round index `T` (R27) and the Digest State `H` (R21, R37), and to what.
-/
namespace Sys2Proof.Machine

/-! ### The round index -/

/-- ROUND counts `T` up below 63 and leaves it at 63 (R27, R101). -/
theorem execRound_T {s t : State} (h : execRound s = .next t) :
    (s.T = 63#6 ∧ t.T = s.T) ∨ (s.T.toNat < 63 ∧ t.T.toNat = s.T.toNat + 1) := by
  obtain ⟨last, rfl⟩ | ⟨more, rfl⟩ := execRound_cases h
  · exact .inl ⟨beq_iff_eq.mp last, rfl⟩
  · have notLast : s.T ≠ 63#6 := beq_eq_false_iff_ne.mp more
    have below : s.T.toNat < 63 := by bv_omega
    exact .inr ⟨below, by simp only; bv_omega⟩

/-- The operations that clear `T` or begin a block (R27, R37). -/
def MayClearT (i : Instr) : Prop :=
  i = .reset ∨ (∃ n seed, i = .start n seed) ∨ (∃ n seed, i = .startSeeded n seed) ∨
    (∃ n seed, i = .cancel n seed) ∨ (∃ lo iv ie r, i = .beginBlock lo iv ie r) ∨
    (∃ lo iv ie, i = .finish lo iv ie) ∨ ∃ nz r, i = .underrun nz r

/-- `T` stays, is cleared by an operation that may, or goes up by one in a ROUND below 63. -/
theorem exec_T_cases {i : Instr} {s t : State} (h : exec i s = .next t) :
    t.T = s.T ∨ (t.T = 0#6 ∧ MayClearT i) ∨
      ((∃ nz lo iv ie r, i = .round nz lo iv ie r) ∧ s.T.toNat < 63 ∧ t.T.toNat = s.T.toNat + 1) := by
  cases i
  case reset | beginBlock | finish | underrun => cases h; exact .inr (.inl ⟨rfl, by simp [MayClearT]⟩)
  case start =>
    obtain ⟨-, rfl⟩ | ⟨-, rfl⟩ := exec_start_cases h
    · exact .inl rfl
    · exact .inr (.inl ⟨rfl, by simp [MayClearT]⟩)
  case startSeeded =>
    obtain ⟨-, rfl⟩ | ⟨-, rfl⟩ := exec_startSeeded_cases h
    · exact .inl rfl
    · exact .inr (.inl ⟨rfl, by simp [MayClearT]⟩)
  case cancel =>
    obtain ⟨-, rfl⟩ | ⟨-, rfl⟩ := exec_cancel_cases h
    · exact .inr (.inl ⟨rfl, by simp [MayClearT]⟩)
    · exact .inl rfl
  case round nz lo iv ie r =>
    obtain ⟨-, stays⟩ | up := execRound_T h
    · exact .inl stays
    · exact .inr (.inr ⟨⟨nz, lo, iv, ie, r, rfl⟩, up⟩)
  case nop | waitOut | schedLoad | waitIn | schedExpand | fold | holdIdle | holdDone | holdFailed =>
    cases h; exact .inl rfl

/-- Settles O45: the cases of `exec_T_cases`, and what BEGIN_BLOCK, ROUND and the operations that keep `T` do. -/
theorem roundIndexNeverWraps : Obligations.RoundIndexNeverWraps := by
  intro i s t h
  refine ⟨exec_T_cases h, ?beginBlock, ?round, ?keeps⟩
  case beginBlock =>
    rintro ⟨lo, iv, ie, r, rfl⟩
    cases h; rfl
  case round =>
    rintro ⟨nz, lo, iv, ie, r, rfl⟩
    obtain ⟨last, stays⟩ | ⟨more, up⟩ := execRound_T h
    · exact ⟨fun more => by simp [last] at more, fun _ => stays.trans last⟩
    · exact ⟨fun _ => up, fun last => by simp [last] at more⟩
  case keeps =>
    rintro (⟨nz, ie, r, rfl⟩ | ⟨nz, iv, ie, r, rfl⟩ | ⟨nz, lo, iv, ie, r, rfl⟩)
    all_goals cases h; rfl

/-! ### The Digest State -/

/-- Settles O46, by the operation: all but seven keep `H`. -/
theorem digestStateChangesOnlyAtItsPoints : Obligations.DigestStateChangesOnlyAtItsPoints := by
  intro i s t h changed
  cases i
  case start n seed =>
    obtain ⟨-, rfl⟩ | ⟨rest, rfl⟩ := exec_start_cases h
    · exact absurd rfl changed
    · exact .inl ⟨n, seed, rfl, rest, rfl⟩
  case startSeeded n seed =>
    obtain ⟨-, rfl⟩ | ⟨rest, rfl⟩ := exec_startSeeded_cases h
    · exact absurd rfl changed
    · exact .inr (.inl ⟨n, seed, rfl, rest, rfl⟩)
  case fold nz lo iv ie r => cases h; exact .inr (.inr (.inl ⟨nz, lo, iv, ie, r, rfl, rfl⟩))
  case reset | finish | underrun => cases h; exact .inr (.inr (.inr ⟨rfl, by simp⟩))
  case cancel n seed =>
    obtain ⟨-, rfl⟩ | ⟨-, rfl⟩ := exec_cancel_cases h
    · exact .inr (.inr (.inr ⟨rfl, .inr (.inl ⟨n, seed, rfl⟩)⟩))
    · exact absurd rfl changed
  case round =>
    obtain ⟨-, rfl⟩ | ⟨-, rfl⟩ := execRound_cases h
    · exact absurd rfl changed
    · exact absurd rfl changed
  case nop | beginBlock | waitOut | schedLoad | waitIn | schedExpand | holdIdle | holdDone | holdFailed =>
    cases h; exact absurd rfl changed

end Sys2Proof.Machine
end

