-- ==== Sys2Proof/Proofs/Tables.lean ====
section
/-!
PROOFS. The tables of R22 and R98 against their definition: the first 32 bits of the fractional parts of roots of primes.
-/
namespace Sys2Proof.Machine

/-- The primes the obligation counts, written out. -/
def firstPrimes : List Nat :=
  [2, 3, 5, 7, 11, 13, 17, 19, 23, 29, 31, 37, 41, 43, 47, 53, 59, 61, 67, 71, 73, 79, 83, 89, 97, 101, 103, 107, 109,
   113, 127, 131, 137, 139, 149, 151, 157, 163, 167, 173, 179, 181, 191, 193, 197, 199, 211, 223, 227, 229, 233, 239,
   241, 251, 257, 263, 269, 271, 277, 281, 283, 293, 307, 311]

/-- Trial division leaves exactly `firstPrimes` below 312. -/
theorem filter_trialDivision_eq_firstPrimes :
    (List.range 312).filter (fun n => decide (1 < n) && (List.range n).all (fun d => d < 2 || n % d != 0)) =
      firstPrimes := by
  decide +kernel

/-- With its integer part `c`, each `IV[i]` is the square root of its prime, to 32 fractional bits (R22). -/
theorem IV_is_squareRoot : ∀ i : Fin 8, ∃ c ∈ List.range 5,
    (c * 2 ^ 32 + IV[i].toNat) ^ 2 ≤ firstPrimes.getD i 0 * 2 ^ 64 ∧
    firstPrimes.getD i 0 * 2 ^ 64 < (c * 2 ^ 32 + IV[i].toNat + 1) ^ 2 := by
  decide

/-- With its integer part `c`, each `K[t]` is the cube root of its prime, to 32 fractional bits (R98). -/
theorem K_is_cubeRoot : ∀ i : Fin 64, ∃ c ∈ List.range 7,
    (c * 2 ^ 32 + (K (BitVec.ofFin i)).toNat) ^ 3 ≤ firstPrimes.getD i 0 * 2 ^ 96 ∧
    firstPrimes.getD i 0 * 2 ^ 96 < (c * 2 ^ 32 + (K (BitVec.ofFin i)).toNat + 1) ^ 3 := by
  decide

/-- Settles O53: the tables are finite, and each entry is compared with its root exactly, by squares and cubes. -/
theorem tablesAreRootsOfPrimes : Obligations.TablesAreRootsOfPrimes := by
  unfold Obligations.TablesAreRootsOfPrimes
  rw [filter_trialDivision_eq_firstPrimes]
  exact ⟨rfl, IV_is_squareRoot, K_is_cubeRoot⟩

end Sys2Proof.Machine
end

