-- ==== Sys2Proof/Proofs/StepRun.lean ====
section
/-!
PROOFS. The converse of the inversion of a step: where the guard of a case of `StepResult` holds, the step makes that
case. With it a step is computed from its guard; first the ready and valid signals these guards are about.
-/
namespace Sys2Proof.Machine

/-! ### What a NOP accepted in the step leaves alone -/

/-- What is blind to the record is not changed by the NOP, which only writes it (R130). -/
theorem afterNop_congr {α : Type} (f : State → α)
    (blind : ∀ (tr : List Event) (s : State), f (s.withTrace tr) = f s) (s : State) : f s.afterNop = f s := by
  rcases afterNop_cases s with unchanged | ⟨-, nop⟩
  · rw [unchanged]
  · rw [nop]; exact blind _ s

/-- Without a command in the step nothing is recorded for CMD. -/
theorem afterNop_of_noCommand {s : State} (noCommand : s.pins.cmdValid = false) : s.afterNop = s := by
  rw [State.afterNop, if_neg (by simp [State.nopOffered, noCommand])]

@[simp] theorem afterNop_NREM (s : State) : s.afterNop.NREM = s.NREM := afterNop_congr _ (fun _ _ => rfl) s
@[simp] theorem afterNop_STATE (s : State) : s.afterNop.STATE = s.STATE := afterNop_congr _ (fun _ _ => rfl) s
@[simp] theorem afterNop_busy (s : State) : s.afterNop.busy = s.busy := afterNop_congr _ (fun _ _ => rfl) s
@[simp] theorem afterNop_suspended (s : State) : s.afterNop.suspended = s.suspended :=
  afterNop_congr _ (fun _ _ => rfl) s
@[simp] theorem afterNop_pins (s : State) : s.afterNop.pins = s.pins := afterNop_congr _ (fun _ _ => rfl) s

/-! ### The ready and valid signals -/

theorem inReady_iff (s : State) : s.inReady = true ↔ s.STATE = .expandingSchedule ∧ s.T.toNat < 16 := by
  simp [State.inReady, State.loadRound]

theorem outValid_iff (s : State) : s.outValid = true ↔ s.STATE = .awaitingBlock ∧ s.NREM = 0#32 := by
  simp [State.outValid, State.noBlocksLeft]

theorem suspended_iff (s : State) :
    s.suspended = true ↔ (s.inReady = true ∧ s.pins.inValid = false ∧ s.pins.inEos = false) ∨
      (s.outValid = true ∧ s.pins.outReady = false) := by
  simp [State.suspended, and_assoc]

theorem inReady_of_phase {s : State} (phase : s.STATE ≠ .expandingSchedule) : s.inReady = false :=
  Bool.eq_false_iff.mpr fun ready => phase ((inReady_iff s).mp ready).1

theorem outValid_of_phase {s : State} (phase : s.STATE ≠ .awaitingBlock) : s.outValid = false :=
  Bool.eq_false_iff.mpr fun valid => phase ((outValid_iff s).mp valid).1

theorem outData_of_outValid {s : State} (valid : s.outValid = true) : s.outData = pack8 s.H := if_pos valid

/-- A CORE at rest offers nothing on IN or OUT. -/
theorem rest_signals {s : State} (rest : s.busy = false) : s.inReady = false ∧ s.outValid = false := by
  rcases (busy_eq_false_iff s).mp rest with phase | phase | phase <;>
    exact ⟨inReady_of_phase (by simp [phase]), outValid_of_phase (by simp [phase])⟩

/-! ### The step from its case -/

/-- A hold of a CORE at rest or at a suspension point (R52, R138). -/
theorem exec_internalOp_hold {s : State} (waits : s.busy = false ∨ s.suspended = true) :
    exec s.internalOp s = .next s := by
  rcases waits with rest | suspended
  · rcases (busy_eq_false_iff s).mp rest with phase | phase | phase
    · simp only [State.internalOp, phase, exec, execHoldIdle]
    · simp only [State.internalOp, phase, exec, execHoldDone]
    · simp only [State.internalOp, phase, exec, execHoldFailed]
  · rcases (suspended_iff s).mp suspended with ⟨ready, invalid, notEnded⟩ | ⟨valid, notReady⟩
    · obtain ⟨phase, load⟩ := (inReady_iff s).mp ready
      simp [State.internalOp, phase, State.loadRound, load, invalid, notEnded, exec, execWaitIn]
    · obtain ⟨phase, noMore⟩ := (outValid_iff s).mp valid
      simp [State.internalOp, phase, State.noBlocksLeft, noMore, notReady, exec, execWaitOut]

/-- The operation of the dispatch key makes the case whose guard holds. -/
theorem exec_internalOp_of_result {s v : State} (run : InternalResult s v) : exec s.internalOp s = .next v := by
  cases run with
  | hold waits => exact exec_internalOp_hold waits
  | beginBlock phase more => simp [State.internalOp, phase, State.noBlocksLeft, more, exec, execBeginBlock]
  | finish phase noMore ready => simp [State.internalOp, phase, State.noBlocksLeft, noMore, ready, exec, execFinish]
  | schedLoad phase load valid => simp [State.internalOp, phase, State.loadRound, load, valid, exec, execSchedLoad]
  | underrun phase load invalid ended =>
    simp [State.internalOp, phase, State.loadRound, load, invalid, ended, exec, execUnderrun]
  | schedExpand phase expand =>
    simp [State.internalOp, phase, State.loadRound, Nat.not_lt.mpr expand, exec, execSchedExpand]
  | round phase more => rw [State.internalOp, phase]; exact execRound_more more
  | lastRound phase last => rw [State.internalOp, phase]; exact execRound_last last
  | fold phase => simp only [State.internalOp, phase, exec, execFold]

/-- The step makes the case whose guard holds (R70). -/
theorem step_of_stepResult {s v : State} (result : StepResult s v) : step s = .next v.advance := by
  cases result with
  | reset rst => exact step_of_selection (selection_reset rst) rfl
  | cancelBusy rst offered busy =>
    have run := exec_decodeCmd_cancel ((cancelOffered_iff s).mp offered).2 s
    rw [if_pos busy] at run
    exact step_of_selection (selection_command rst (by simp [offered])) run
  | cancelRest rst offered rest =>
    have run := exec_decodeCmd_cancel ((cancelOffered_iff s).mp offered).2 s
    rw [if_neg (by simp [rest])] at run
    exact step_of_selection (selection_command rst (by simp [offered])) run
  | start rst accepted =>
    obtain ⟨-, op, rest⟩ := (startAccepted_iff s).mp accepted
    exact step_of_selection (selection_command rst (by simp [accepted])) (exec_decodeCmd_start op rest)
  | internal rst noCancel noStart run =>
    have ran := exec_internalOp_of_result run
    rw [afterNop_internalOp] at ran
    rw [step_internal rst noCancel noStart (decode_dispatchKey_internalOp s), ran, andThen_next]

/-- A busy CORE accepts no START (R45, R131). -/
theorem startAccepted_of_busy {s : State} (busy : s.busy = true) : s.startAccepted = false := by
  simp [State.startAccepted, busy]

/-- The step of a CORE at rest or at a suspension point keeps every register (R52). -/
theorem step_hold {s : State} (rst : s.pins.rst = false) (noCancel : s.cancelOffered = false)
    (noStart : s.startAccepted = false) (waits : s.busy = false ∨ s.suspended = true) :
    step s = .next s.afterNop.advance := by
  refine step_of_stepResult (.internal rst noCancel noStart (.hold ?_))
  rwa [afterNop_busy, afterNop_suspended]

end Sys2Proof.Machine
end

