-- ==== Sys2Proof/Proofs/Transfers.lean ====
section
/-!
PROOFS. Which transfers a step makes on CMD, IN and OUT (R41 to R45, R70), by the cases of `StepResult`; and from them
what a step that hands over a digest, and one that enters Failed, has done (R51, R117, R143).
-/
namespace Sys2Proof.Machine

/-! ### The transfers on IN and OUT of the internal operation -/

/-- The Word that IN transfers when nothing stands before the internal operation (R42). -/
def State.wordTaken (s : State) : Option Word := if s.pins.inValid && s.inReady then some s.pins.inData else none

/-- The digest that OUT transfers when nothing stands before the internal operation (R44). -/
def State.digestGiven (s : State) : Option Digest := if s.outValid && s.pins.outReady then some s.outData else none

/-- The two as trace entries. -/
def State.beats (s : State) : List Event :=
  (s.wordTaken.map Event.word).toList ++ (s.digestGiven.map Event.digest).toList

theorem afterNop_beats (s : State) : s.afterNop.beats = s.beats := afterNop_congr _ (fun _ _ => rfl) s

theorem beats_of_silent {s : State} (noWord : (s.pins.inValid && s.inReady) = false)
    (noDigest : (s.outValid && s.pins.outReady) = false) : s.beats = [] := by
  simp [State.beats, State.wordTaken, State.digestGiven, noWord, noDigest]

theorem beats_of_phase {s : State} (notExpanding : s.STATE ≠ .expandingSchedule)
    (notAwaiting : s.STATE ≠ .awaitingBlock) :
    s.beats = [] :=
  beats_of_silent (by simp [inReady_of_phase notExpanding]) (by simp [outValid_of_phase notAwaiting])

/-- The internal operation records what IN and OUT transfer: SCHED_LOAD the Word, FINISH the digest, no other anything
(R70). -/
theorem internalResult_trace {s v : State} (run : InternalResult s v) : v.trace = s.trace ++ s.beats := by
  have silent (none : s.beats = []) : s.trace = s.trace ++ s.beats := by rw [none, List.append_nil]
  cases run with
  | hold waits =>
    refine silent ?_
    rcases waits with rest | suspended
    · obtain ⟨notReady, notValid⟩ := rest_signals rest
      exact beats_of_silent (by simp [notReady]) (by simp [notValid])
    · rcases (suspended_iff s).mp suspended with ⟨ready, invalid, -⟩ | ⟨valid, notReady⟩
      · exact beats_of_silent (by simp [invalid]) (by simp [outValid_of_phase, ((inReady_iff s).mp ready).1])
      · exact beats_of_silent (by simp [inReady_of_phase, ((outValid_iff s).mp valid).1]) (by simp [notReady])
  | beginBlock phase more =>
    have notValid : s.outValid = false := by simp [State.outValid, State.noBlocksLeft, more]
    exact silent (beats_of_silent (by simp [inReady_of_phase, phase]) (by simp [notValid]))
  | finish phase noMore ready =>
    have valid : s.outValid = true := (outValid_iff s).mpr ⟨phase, noMore⟩
    have taken : s.wordTaken = none := by simp [State.wordTaken, inReady_of_phase, phase]
    have given : s.digestGiven = some (pack8 s.H) := by
      simp [State.digestGiven, valid, ready, outData_of_outValid]
    simp [State.beats, taken, given]
  | schedLoad phase load valid =>
    have ready : s.inReady = true := (inReady_iff s).mpr ⟨phase, load⟩
    have taken : s.wordTaken = some s.pins.inData := by simp [State.wordTaken, ready, valid]
    have given : s.digestGiven = none := by simp [State.digestGiven, outValid_of_phase, phase]
    simp [State.beats, taken, given, State.inTake]
  | underrun phase _ invalid =>
    exact silent (beats_of_silent (by simp [invalid]) (by simp [outValid_of_phase, phase]))
  | schedExpand phase expand =>
    have notReady : s.inReady = false := by simp [State.inReady, State.loadRound, expand]
    exact silent (beats_of_silent (by simp [notReady]) (by simp [outValid_of_phase, phase]))
  | round phase => exact silent (beats_of_phase (by simp [phase]) (by simp [phase]))
  | lastRound phase => exact silent (beats_of_phase (by simp [phase]) (by simp [phase]))
  | fold phase => exact silent (beats_of_phase (by simp [phase]) (by simp [phase]))

/-! ### The transfers of a step -/

theorem transfers_of_rst {s : State} (rst : s.pins.rst = true) : transfers s = ⟨none, none, none⟩ := by
  simp [transfers, rst]

/-- A CANCEL is accepted in every state and lets nothing happen on IN and OUT (R45, R70). -/
theorem transfers_of_cancel {s : State} (rst : s.pins.rst = false) (offered : s.cancelOffered = true) :
    transfers s = ⟨some s.pins.cmdWord, none, none⟩ := by
  obtain ⟨valid, op⟩ := (cancelOffered_iff s).mp offered
  simp [transfers, rst, offered, valid, State.cmdReady, op]

/-- A START is accepted at rest only, where IN and OUT are idle (R45, R131). -/
theorem transfers_of_start {s : State} (rst : s.pins.rst = false) (accepted : s.startAccepted = true) :
    transfers s = ⟨some s.pins.cmdWord, none, none⟩ := by
  obtain ⟨valid, op, rest⟩ := (startAccepted_iff s).mp accepted
  obtain ⟨notReady, notValid⟩ := rest_signals rest
  have taken : s.cmdReady (cmdOp s.pins.cmdWord) = true := by
    rcases op with op | op <;> simp [State.cmdReady, op, rest]
  simp [transfers, rst, valid, taken, notReady, notValid]

/-- Beside the internal operation only a NOP is accepted (R70). -/
theorem cmdReady_beside_internal {s : State} (noCancel : s.cancelOffered = false) (noStart : s.startAccepted = false) :
    (s.pins.cmdValid && s.cmdReady (cmdOp s.pins.cmdWord)) = s.nopOffered := by
  simp only [State.cancelOffered, State.startAccepted, State.nopOffered, State.cmdReady] at noCancel noStart ⊢
  generalize cmdOp s.pins.cmdWord = op at noCancel noStart ⊢
  cases valid : s.pins.cmdValid
  · rfl
  · rw [valid, Bool.true_and] at noCancel noStart
    rw [noCancel, noStart, Bool.or_false, Bool.or_false]

theorem transfers_of_internal {s : State} (rst : s.pins.rst = false) (noCancel : s.cancelOffered = false)
    (noStart : s.startAccepted = false) :
    transfers s = ⟨if s.nopOffered then some s.pins.cmdWord else none, s.wordTaken, s.digestGiven⟩ := by
  simp only [transfers, rst, noCancel, Bool.not_false, Bool.true_and, cmdReady_beside_internal noCancel noStart]
  rfl

theorem afterNop_trace (s : State) :
    s.afterNop.trace = s.trace ++ ((if s.nopOffered then some s.pins.cmdWord else none).map Event.command).toList := by
  unfold State.afterNop
  cases s.nopOffered <;> simp

theorem stepResult_trace {s v : State} (result : StepResult s v) : v.trace = s.trace ++ (transfers s).events := by
  cases result with
  | reset rst => simp [transfers_of_rst rst, Transfers.events]
  | cancelBusy rst offered => simp [transfers_of_cancel rst offered, Transfers.events]
  | cancelRest rst offered => simp [transfers_of_cancel rst offered, Transfers.events]
  | start rst accepted => simp [transfers_of_start rst accepted, Transfers.events]
  | internal rst noCancel noStart run =>
    rw [internalResult_trace run, afterNop_trace, afterNop_beats, transfers_of_internal rst noCancel noStart,
      Transfers.events, State.beats]
    simp only [List.append_assoc]

/-- Settles O14, by the cases of a step. -/
theorem stepRecordsItsTransfers : Obligations.StepRecordsItsTransfers := by
  intro s t hstep
  obtain ⟨v, result, rfl⟩ := stepResult_of_step hstep
  rw [advance_trace, stepResult_trace result]

/-! ### A step that hands over a digest -/

/-- OUT transfers only in a step that is neither replaced by RESET nor by CANCEL, where the Digest State is offered and
the output collaborator is ready (R44, R70). -/
theorem transfers_out_cases {s : State} {d : Digest} (given : (transfers s).out = some d) :
    s.pins.rst = false ∧ s.cancelOffered = false ∧ s.outValid = true ∧ s.pins.outReady = true ∧
      d = pack8 s.H := by
  simp only [transfers, Option.ite_none_right_eq_some, Option.some.injEq, Bool.and_eq_true, Bool.not_eq_true'] at given
  obtain ⟨⟨⟨⟨rst, noCancel⟩, valid⟩, ready⟩, rfl⟩ := given
  exact ⟨rst, noCancel, valid, ready, outData_of_outValid valid⟩

/-- Such a step performs FINISH (R114). -/
theorem step_of_digest {s : State} {d : Digest} (given : (transfers s).out = some d) :
    step s = .next
      (State.advance { (s.afterNop.record (.digest (pack8 s.afterNop.H))).zeroData with STATE := .done }) := by
  obtain ⟨rst, noCancel, valid, ready, -⟩ := transfers_out_cases given
  obtain ⟨phase, noMore⟩ := (outValid_iff s).mp valid
  have noStart : s.startAccepted = false := startAccepted_of_busy (by simp [State.busy, phase])
  have run := InternalResult.finish (s := s.afterNop) (by simp [phase]) (by simp [noMore]) (by simp [ready])
  exact step_of_stepResult (.internal rst noCancel noStart run)

/-- Settles O34: the digest is the Digest State of AwaitingBlock with no block left, which the tie of the registers to
the transfers makes the chain over all blocks (R117, R143). -/
theorem digestIsTheChainOfTheWordsTaken : Obligations.DigestIsTheChainOfTheWordsTaken := by
  intro s t d _ faithful hstep given
  obtain rfl := Host.Outcome.next.inj ((step_of_digest given).symm.trans hstep)
  refine ⟨rfl, ?_⟩
  obtain ⟨-, -, valid, -, rfl⟩ := transfers_out_cases given
  obtain ⟨phase, noMore⟩ := (outValid_iff s).mp valid
  have busy : s.busy = true := by simp [State.busy, phase]
  obtain ⟨r, hr, hbusy⟩ := (faithful_iff_of_busy busy).mp faithful
  obtain ⟨wordsTaken, digestGiven⟩ := completed_of_finish hbusy phase noMore
  have isChain : pack8 s.H = pack8 (chain r.seed (blocksOf r.words r.count.toNat)) := by
    simpa [hbusy.no_digest] using digestGiven
  exact ⟨r, hr, hbusy.no_digest, wordsTaken, isChain⟩

/-! ### A step into Failed -/

theorem allZero_raiseCondition (c : ErrCode) (s : State) : AllZero (s.raiseCondition c) := by
  refine ⟨?_, ?_, ?_, rfl, rfl⟩
  all_goals exact fun i => Vector.getElem_replicate i.isLt

/-- The failure entry is the only way into Failed: by a CANCEL while busy, or by an underrun (R153, R151). -/
theorem stepResult_into_failed {s v : State} (result : StepResult s v) (before : s.STATE ≠ .failed)
    (after : v.STATE = .failed) :
    (∃ u : State, v = u.raiseCondition .cancelled ∧ s.cancelOffered = true) ∨
      ∃ u : State, v = u.raiseCondition .inputUnderrun ∧ s.STATE = .expandingSchedule := by
  cases result with
  | reset => simp at after
  | cancelBusy _ offered => exact .inl ⟨_, rfl, offered⟩
  | cancelRest => exact absurd after before
  | start => simp at after
  | internal _ _ _ run =>
    cases run with
    | underrun phase => exact .inr ⟨_, rfl, by simpa using phase⟩
    | hold => simp [before] at after
    | beginBlock | finish | schedLoad | schedExpand | round | lastRound | fold => simp at after

/-- No digest is given in a step with a CANCEL, nor outside AwaitingBlock. -/
theorem transfers_out_eq_none {s : State} (h : s.cancelOffered = true ∨ s.STATE ≠ .awaitingBlock) :
    (transfers s).out = none := by
  refine Option.eq_none_iff_forall_ne_some.mpr fun d given => ?_
  obtain ⟨-, noCancel, valid, -⟩ := transfers_out_cases given
  rcases h with offered | phase
  · simp [noCancel] at offered
  · exact phase ((outValid_iff s).mp valid).1

/-- Settles O44, by the two ways into Failed. -/
theorem failureGivesNoDigest : Obligations.FailureGivesNoDigest := by
  intro s t hstep before after
  obtain ⟨v, result, rfl⟩ := stepResult_of_step hstep
  rcases stepResult_into_failed result before after with ⟨u, rfl, offered⟩ | ⟨u, rfl, phase⟩
  · exact ⟨.inr rfl, transfers_out_eq_none (.inl offered), allZero_raiseCondition .cancelled u⟩
  · exact ⟨.inl rfl, transfers_out_eq_none (.inr (by simp [phase])), allZero_raiseCondition .inputUnderrun u⟩

end Sys2Proof.Machine
end

