-- ==== Sys2Proof/Proofs/Holds.lean ====
section
/-!
PROOFS. The holds of the rest states and the waits for a collaborator change nothing (R52, R136 to R138), so that the
number of steps spent at the input suspension point does not matter (R53).
-/
namespace Sys2Proof.Machine

/-! ### A hold changes nothing -/

/-- The signals of the suspension points and the Digest State offered are read from the registers. -/
theorem signals_of_sameRegisters {s t : State} (same : SameRegisters s t) :
    t.inReady = s.inReady ∧ t.outValid = s.outValid ∧ t.outData = s.outData := by
  obtain ⟨hH, -, -, hT, hNREM, hSTATE, -⟩ := same
  have ready : t.inReady = s.inReady := by simp only [State.inReady, State.loadRound, hSTATE, hT]
  have valid : t.outValid = s.outValid := by simp only [State.outValid, State.noBlocksLeft, hSTATE, hNREM]
  exact ⟨ready, valid, by rw [State.outData, State.outData, valid, hH]⟩

theorem sameRegisters_afterNop_advance (s : State) : SameRegisters s s.afterNop.advance :=
  sameRegisters_afterNop s

/-- A step that holds keeps the registers, and with them what the CORE offers. -/
theorem stepMakes_hold {s : State} {E : State → State → Prop} (rst : s.pins.rst = false)
    (noCancel : s.cancelOffered = false) (noStart : s.startAccepted = false)
    (waits : s.busy = false ∨ s.suspended = true)
    (kept : ∀ t, SameRegisters s t → E s t) : StepMakes E s :=
  ⟨_, step_hold rst noCancel noStart waits, kept _ (sameRegisters_afterNop_advance s),
    afterNop_congr (·.script.tail) (fun _ _ => rfl) s, afterNop_congr (·.tick + 1) (fun _ _ => rfl) s⟩

/-- A CANCEL at rest is recorded and holds like the rest (R129, R138). -/
theorem stepMakes_cancelRest {s : State} {E : State → State → Prop} (rst : s.pins.rst = false)
    (offered : s.cancelOffered = true) (rest : s.busy = false)
    (kept : ∀ t, SameRegisters s t → E s t) : StepMakes E s :=
  ⟨_, step_of_stepResult (.cancelRest rst offered rest), kept _ ⟨rfl, rfl, rfl, rfl, rfl, rfl, rfl⟩, rfl, rfl⟩

/-- Settles O30: the holds by definition, and each step that holds by `stepMakes_hold`. -/
theorem holdsChangeNothing : Obligations.HoldsChangeNothing := by
  refine ⟨fun _ _ _ _ _ _ => ⟨rfl, rfl, rfl, rfl, rfl⟩, ?waitIn, ?waitOut, ?rest⟩
  case waitIn =>
    rintro s phase load invalid notEnded ⟨rst, noCancel⟩
    have ready : s.inReady = true := (inReady_iff s).mpr ⟨phase, load⟩
    have noStart : s.startAccepted = false := startAccepted_of_busy (by simp [State.busy, phase])
    refine stepMakes_hold rst noCancel noStart (.inr ((suspended_iff s).mpr (.inl ⟨ready, invalid, notEnded⟩)))
      fun t same => ⟨same, ?_⟩
    obtain ⟨hready, -, -⟩ := signals_of_sameRegisters same
    exact hready.trans ready
  case waitOut =>
    rintro s phase noMore notReady ⟨rst, noCancel⟩
    have valid : s.outValid = true := (outValid_iff s).mpr ⟨phase, noMore⟩
    have noStart : s.startAccepted = false := startAccepted_of_busy (by simp [State.busy, phase])
    refine stepMakes_hold rst noCancel noStart (.inr ((suspended_iff s).mpr (.inr ⟨valid, notReady⟩)))
      fun t same => ⟨same, ?_⟩
    obtain ⟨-, hvalid, hdata⟩ := signals_of_sameRegisters same
    exact ⟨hvalid.trans valid, hdata.trans (outData_of_outValid valid)⟩
  case rest =>
    intro s rest rst noStart
    have kept (t : State) (same : SameRegisters s t) :
        SameRegisters s t ∧ t.inReady = false ∧ t.outValid = false := by
      obtain ⟨hready, hvalid, -⟩ := signals_of_sameRegisters same
      obtain ⟨notReady, notValid⟩ := rest_signals rest
      exact ⟨same, hready.trans notReady, hvalid.trans notValid⟩
    cases offered : s.cancelOffered
    · exact stepMakes_hold rst offered noStart (.inl rest) kept
    · exact stepMakes_cancelRest rst offered rest kept

/-! ### Pacing -/

/-- At the input suspension point a step in which nothing is offered passes, and that is all (R136). -/
theorem step_quiet {s : State} (ready : s.inReady = true) (rst : s.pins.rst = false)
    (noCommand : s.pins.cmdValid = false) (invalid : s.pins.inValid = false) (notEnded : s.pins.inEos = false) :
    step s = .next s.advance := by
  have noCancel : s.cancelOffered = false := by simp [State.cancelOffered, noCommand]
  have noStart : s.startAccepted = false := by simp [State.startAccepted, noCommand]
  have hold := step_hold rst noCancel noStart (.inr ((suspended_iff s).mpr (.inl ⟨ready, invalid, notEnded⟩)))
  rwa [afterNop_of_noCommand noCommand] at hold

/-- Settles O39, by induction on the quiet steps. -/
theorem pacingDoesNotMatter : Obligations.PacingDoesNotMatter := by
  intro s quiet rest ready isQuiet n
  induction quiet generalizing s with
  | nil => rw [List.length_nil, Nat.zero_add]; rfl
  | cons p quiet ih =>
    obtain ⟨⟨rst, noCommand, invalid, notEnded⟩, others⟩ := List.forall_mem_cons.mp isQuiet
    have passes : step { s with script := p :: (quiet ++ rest) } =
        .next { s with script := quiet ++ rest, tick := s.tick + 1 } :=
      step_quiet (s := { s with script := p :: (quiet ++ rest) }) ready rst noCommand invalid notEnded
    calc steps ((p :: quiet).length + n) { s with script := p :: quiet ++ rest }
        = steps (quiet.length + n + 1) { s with script := p :: (quiet ++ rest) } := by
          rw [List.length_cons, Nat.add_right_comm]; rfl
      _ = steps (quiet.length + n) { s with script := quiet ++ rest, tick := s.tick + 1 } := by
          rw [steps, passes, andThen_next]
      _ = steps n { s with script := rest, tick := s.tick + 1 + quiet.length } :=
          ih { s with tick := s.tick + 1 } ready others
      _ = steps n { s with script := rest, tick := s.tick + (p :: quiet).length } := by
          rw [List.length_cons, Nat.add_assoc, Nat.add_comm 1]

end Sys2Proof.Machine
end

