-- ==== Sys2Proof/Proofs/PortValues.lean ====
section
/-!
PROOFS. Which port values a step looks at (R41, R43, R180): with other port values that agree with its own on these, the
same case of the step holds and gives the same state.
-/
namespace Sys2Proof.Machine

/-- Where the internal operation looks at IN and OUT in the state `s`, its port values and `q` agree (the last two parts
of `SameSeen`). -/
structure State.SeesSameBeats (s : State) (q : Config.Pins) : Prop where
  onIn : s.inReady = true → s.pins.inValid = q.inValid ∧ (s.pins.inValid = true → s.pins.inData = q.inData) ∧
    (s.pins.inValid = false → s.pins.inEos = q.inEos)
  onOut : s.outValid = true → s.pins.outReady = q.outReady

theorem seesSameBeats_afterNop {s : State} {q : Config.Pins} (same : s.SeesSameBeats q) :
    s.afterNop.SeesSameBeats q := by
  rcases afterNop_cases s with unchanged | ⟨-, nop⟩
  · rwa [unchanged]
  · rw [nop]; exact ⟨same.onIn, same.onOut⟩

/-- The internal operation makes the same case with port values that agree on IN and OUT where it looks at them. -/
theorem internalResult_withPins {s v : State} {q : Config.Pins} (same : s.SeesSameBeats q) (run : InternalResult s v) :
    InternalResult (s.withPins q) (v.withPins q) := by
  cases run with
  | hold waits =>
    refine .hold (waits.imp id fun suspended => (suspended_iff _).mpr ?_)
    rcases (suspended_iff s).mp suspended with ⟨ready, invalid, notEnded⟩ | ⟨valid, notReady⟩
    · obtain ⟨sameValid, -, sameEos⟩ := same.onIn ready
      exact .inl ⟨ready, sameValid.symm.trans invalid, (sameEos invalid).symm.trans notEnded⟩
    · exact .inr ⟨valid, (same.onOut valid).symm.trans notReady⟩
  | beginBlock phase more => exact .beginBlock (s := s.withPins q) phase more
  | finish phase noMore ready =>
    have sameReady := same.onOut ((outValid_iff s).mpr ⟨phase, noMore⟩)
    exact .finish (s := s.withPins q) phase noMore (sameReady.symm.trans ready)
  | schedLoad phase load valid =>
    obtain ⟨sameValid, sameData, -⟩ := same.onIn ((inReady_iff s).mpr ⟨phase, load⟩)
    rw [State.inTake, sameData valid]
    exact .schedLoad (s := s.withPins q) phase load (sameValid.symm.trans valid)
  | underrun phase load invalid ended =>
    obtain ⟨sameValid, -, sameEos⟩ := same.onIn ((inReady_iff s).mpr ⟨phase, load⟩)
    exact .underrun (s := s.withPins q) phase load (sameValid.symm.trans invalid) ((sameEos invalid).symm.trans ended)
  | schedExpand phase expand => exact .schedExpand (s := s.withPins q) phase expand
  | round phase more => exact .round (s := s.withPins q) phase more
  | lastRound phase last => exact .lastRound (s := s.withPins q) phase last
  | fold phase => exact .fold (s := s.withPins q) phase

/-- A step whose internal operation runs is the same with port values by which it runs too, the same NOP is recorded and
IN and OUT show the same. -/
theorem step_withPins_of_internal {s : State} {q : Config.Pins} (rst : s.pins.rst = false)
    (noCancel : s.cancelOffered = false) (noStart : s.startAccepted = false)
    (rst' : q.rst = false) (noCancel' : (s.withPins q).cancelOffered = false)
    (noStart' : (s.withPins q).startAccepted = false)
    (sameNop : (s.withPins q).afterNop = s.afterNop.withPins q) (same : s.SeesSameBeats q) :
    step s = step (s.withPins q) := by
  obtain ⟨v, -, run⟩ := exec_internalOp s.afterNop
  have run' := internalResult_withPins (seesSameBeats_afterNop same) run
  rw [← sameNop] at run'
  exact (step_of_stepResult (.internal rst noCancel noStart run)).trans
    (step_of_stepResult (.internal (s := s.withPins q) rst' noCancel' noStart' run')).symm

/-! ### The CMD channel -/

/-- Port values with the same CMD channel, its word counting only with `cmd_valid`, offer the same. -/
theorem command_withPins {s : State} {q : Config.Pins} (sameValid : s.pins.cmdValid = q.cmdValid)
    (sameWord : s.pins.cmdValid = true → s.pins.cmdWord = q.cmdWord) :
    (s.withPins q).cancelOffered = s.cancelOffered ∧ (s.withPins q).startAccepted = s.startAccepted ∧
      (s.withPins q).afterNop = s.afterNop.withPins q := by
  have sameBusy : (s.withPins q).busy = s.busy := rfl
  cases offered : s.pins.cmdValid
  · rw [offered] at sameValid
    have none : (s.withPins q).pins.cmdValid = false := sameValid.symm
    rw [afterNop_of_noCommand none, afterNop_of_noCommand offered]
    simp [State.cancelOffered, State.startAccepted, ← sameValid, offered]
  · rw [offered] at sameValid
    refine ⟨?_, ?_, ?_⟩
    · simp [State.cancelOffered, ← sameValid, offered, sameWord offered]
    · simp [State.startAccepted, ← sameValid, offered, sameWord offered, sameBusy]
    · simp only [State.afterNop, State.nopOffered, withPins_pins, ← sameValid, offered, sameWord offered]
      split <;> rfl

/-- A step does not depend on the port values it does not look at. -/
theorem step_withPins_of_sameSeen {s : State} {q : Config.Pins} (seen : SameSeen s s.pins q) :
    step s = step (s.withPins q) := by
  obtain ⟨sameRst, sameElse⟩ := seen
  cases rst : s.pins.rst
  case true =>
    have rst' : (s.withPins q).pins.rst = true := sameRst.symm.trans rst
    exact (step_of_stepResult (.reset rst)).trans (step_of_stepResult (.reset rst')).symm
  case false =>
    have rst' : (s.withPins q).pins.rst = false := sameRst.symm.trans rst
    obtain ⟨sameValid, sameWord, onIn, onOut⟩ := sameElse rst
    obtain ⟨sameCancel, sameStart, sameNop⟩ := command_withPins sameValid sameWord
    obtain ⟨v, hstep, result⟩ := step_result s
    cases result with
    | reset other => simp [rst] at other
    | internal _ noCancel noStart =>
      exact step_withPins_of_internal rst noCancel noStart rst' (sameCancel.trans noCancel) (sameStart.trans noStart)
        sameNop ⟨onIn, onOut⟩
    | cancelBusy _ offered busy =>
      have word := sameWord ((cancelOffered_iff s).mp offered).1
      rw [hstep, step_of_stepResult (.cancelBusy rst' (sameCancel.trans offered) busy), word]; rfl
    | cancelRest _ offered rest =>
      have word := sameWord ((cancelOffered_iff s).mp offered).1
      rw [hstep, step_of_stepResult (.cancelRest rst' (sameCancel.trans offered) rest), word]; rfl
    | start _ accepted =>
      have word := sameWord ((startAccepted_iff s).mp accepted).1
      rw [hstep, step_of_stepResult (.start rst' (sameStart.trans accepted)), word]; rfl

/-- Settles O16: both steps are the step of `s` with the first port values. -/
theorem unseenPortValuesHaveNoEffect : Obligations.UnseenPortValuesHaveNoEffect := fun s p q seen =>
  step_withPins_of_sameSeen (s := s.withPins p) (q := q) seen

/-! ### A START to a busy CORE -/

/-- Settles O21: a START that waits is no case of the step and no transfer; without it the same internal operation
runs. -/
theorem startWaitsWhileBusy : Obligations.StartWaitsWhileBusy := by
  intro s busy rst op
  obtain ⟨notCancel, notNop⟩ : cmdOp s.pins.cmdWord ≠ opCancel ∧ cmdOp s.pins.cmdWord ≠ opNop := by
    rcases op with op | op <;> rw [op] <;> decide
  have noCancel : s.cancelOffered = false := by simp [State.cancelOffered, notCancel]
  have noStart : s.startAccepted = false := startAccepted_of_busy busy
  have noNop : s.nopOffered = false := by simp [State.nopOffered, notNop]
  constructor
  · refine step_withPins_of_internal rst noCancel noStart rst rfl rfl ?_
      ⟨fun _ => ⟨rfl, fun _ => rfl, fun _ => rfl⟩, fun _ => rfl⟩
    rw [afterNop_of_noCommand rfl, State.afterNop, noNop]; rfl
  · simp [transfers_of_internal rst noCancel noStart, noNop]

end Sys2Proof.Machine
end

