-- ==== Sys2Proof/Proofs/Packing.lean ====
section
/-!
PROOFS. The packing of eight Words in a 256-bit value, and the byte order of Words and digests (R44, R46, R47, R61).
-/
namespace Sys2Proof.Machine

theorem words8_get (d : BitVec 256) (i : Fin 8) : (words8 d)[i] = d.extractLsb' (224 - 32 * i.val) 32 := by
  fin_cases i <;> rfl

/-- Word `i` of the packing stands at bits `255-32i` to `224-32i` (R44). -/
theorem pack8_word (x : Words8) (i : Fin 8) : (pack8 x).extractLsb' (224 - 32 * i.val) 32 = x[i] := by
  rw [← words8_get, words8_pack8]

/-- Each bit of a 256-bit value is a bit of one of its Words. -/
theorem words8_bit (d : BitVec 256) {n : Nat} (hn : n < 256) :
    ((words8 d)[7 - n / 32]'(by omega)).getLsbD (n % 32) = d.getLsbD n := by
  have word := words8_get d ⟨7 - n / 32, by omega⟩
  have place : 224 - 32 * (7 - n / 32) + n % 32 = n := by omega
  calc ((words8 d)[7 - n / 32]'(by omega)).getLsbD (n % 32)
      = (d.extractLsb' (224 - 32 * (7 - n / 32)) 32).getLsbD (n % 32) := congrArg (BitVec.getLsbD · _) word
    _ = d.getLsbD n := by
      rw [BitVec.getLsbD_extractLsb', place, decide_eq_true (Nat.mod_lt n (by decide)), Bool.true_and]

theorem words8_injective : Function.Injective words8 := by
  intro d e same
  refine BitVec.eq_of_getLsbD_eq fun n hn => ?_
  rw [← words8_bit d hn, ← words8_bit e hn, same]

/-- The packing of the Words cut from a value is the value (R61). -/
@[simp] theorem pack8_words8 (d : BitVec 256) : pack8 (words8 d) = d :=
  words8_injective (words8_pack8 (words8 d))

/-- A slice within a slice. -/
theorem extractLsb'_of_extractLsb' {w start len : Nat} (x : BitVec w) (k n : Nat) (within : k + n ≤ len) :
    (x.extractLsb' start len).extractLsb' k n = x.extractLsb' (start + k) n := by
  refine BitVec.eq_of_getLsbD_eq fun i hi => ?_
  have inner : k + i < len := by omega
  simp only [BitVec.getLsbD_extractLsb', hi, inner, decide_true, Bool.true_and, Nat.add_assoc]

/-- Byte `4i + j` of a digest is byte `j` of its Word `i` (R47). -/
theorem digestByte_eq_byte_of_word (d : Digest) (i : Fin 8) (j : Fin 4) :
    digestByte d (4 * i.val + j.val) = (d.extractLsb' (224 - 32 * i.val) 32).extractLsb' (24 - 8 * j.val) 8 := by
  have place : 224 - 32 * i.val + (24 - 8 * j.val) = 248 - 8 * (4 * i.val + j.val) := by omega
  rw [extractLsb'_of_extractLsb' _ _ _ (by omega), place, digestByte]

theorem toNat_append_eq_mul_add {m n : Nat} (x : BitVec m) (y : BitVec n) :
    (x ++ y).toNat = x.toNat * 2 ^ n + y.toNat := by
  rw [BitVec.toNat_append, ← Nat.shiftLeft_add_eq_or_of_lt y.isLt, Nat.shiftLeft_eq]

/-- Settles O8, from the Words of the packing, its inverse and the bytes of a Word. -/
theorem digestPackingAndBytes : Obligations.DigestPackingAndBytes := by
  refine ⟨pack8_word, pack8_words8, fun x i j => ?digestByte, fun b0 b1 b2 b3 => ?wordOfBytes⟩
  case digestByte => rw [digestByte_eq_byte_of_word, pack8_word]
  case wordOfBytes =>
    simp only [wordOfBytes, toNat_append_eq_mul_add]
    omega

end Sys2Proof.Machine
end

