-- ==== Sys2Proof/Proofs/Encoding.lean ====
section
/-!
PROOFS. The codes of STATE (R63), the fields of a dispatch key (R65), and the round trips between operations and their
words in the three formats (R61, R66, R71, R75). Every dispatch key but the reserved ones is the key of a controller
state and five free bits, so each statement about keys is one about controller states.
-/
namespace Sys2Proof.Machine

/-! ### The codes of STATE -/

@[simp] theorem ofCode_code (ph : Phase) : Phase.ofCode ph.code = some ph := by cases ph <;> rfl

theorem ofCode_eq_none_iff (c : BitVec 3) : Phase.ofCode c = none ↔ c = 0b111#3 := by revert c; decide

theorem code_of_ofCode {c : BitVec 3} {ph : Phase} (h : Phase.ofCode c = some ph) : ph.code = c := by
  unfold Phase.ofCode at h
  split_ifs at h <;> cases h <;> exact Eq.symm ‹_›

/-- A code is the reserved one or that of a controller state (R63). -/
theorem code_cases (c : BitVec 3) : c = 0b111#3 ∨ ∃ ph : Phase, ph.code = c := by
  cases h : Phase.ofCode c with
  | none => exact .inl ((ofCode_eq_none_iff c).mp h)
  | some ph => exact .inr ⟨ph, code_of_ofCode h⟩

theorem busy_iff_code (s : State) : s.busy = true ↔ s.STATE.code ∈ [0b001#3, 0b010#3, 0b011#3, 0b100#3] := by
  unfold State.busy
  cases s.STATE <;> decide

/-- Settles O5: the codes by definition; `ofCode` is their partial inverse. -/
theorem stateAndErrorCodes : Obligations.StateAndErrorCodes :=
  ⟨⟨rfl, rfl, rfl, rfl, rfl, rfl, rfl⟩, ⟨rfl, rfl, rfl, rfl⟩,
    fun _ _ => ⟨code_of_ofCode, fun h => h ▸ ofCode_code _⟩, ofCode_eq_none_iff, busy_iff_code⟩

/-! ### The fields of a dispatch key -/

theorem keyOf_state (c : BitVec 3) (nz lo iv ie r : Bool) : (keyOf c nz lo iv ie r).extractLsb' 5 3 = c :=
  calc (keyOf c nz lo iv ie r).extractLsb' 5 3
      = (c ++ keyBit nz ++ keyBit lo ++ keyBit iv ++ keyBit ie).extractLsb' 4 3 := Laws.append_skip _ (keyBit r) 4 3
    _ = (c ++ keyBit nz ++ keyBit lo ++ keyBit iv).extractLsb' 3 3 := Laws.append_skip _ (keyBit ie) 3 3
    _ = (c ++ keyBit nz ++ keyBit lo).extractLsb' 2 3 := Laws.append_skip _ (keyBit iv) 2 3
    _ = c := Laws.append3_high c (keyBit nz) (keyBit lo)

/-- An appended bit becomes bit 0. -/
theorem getLsbD_append_keyBit_zero {w : Nat} (x : BitVec w) (b : Bool) : (x ++ keyBit b).getLsbD 0 = b := by
  rw [BitVec.getLsbD_append]; simp [keyBit]

/-- Appending a bit moves the others up by one. -/
theorem getLsbD_append_keyBit_succ {w : Nat} (x : BitVec w) (b : Bool) (i : Nat) :
    (x ++ keyBit b).getLsbD (i + 1) = x.getLsbD i := by
  simp [keyBit, BitVec.getLsbD_append]

section
variable (c : BitVec 3) (nz lo iv ie r : Bool)

theorem keyOf_ordy : (keyOf c nz lo iv ie r).getLsbD 0 = r := getLsbD_append_keyBit_zero _ r

theorem keyOf_ie : (keyOf c nz lo iv ie r).getLsbD 1 = ie :=
  (getLsbD_append_keyBit_succ _ r 0).trans (getLsbD_append_keyBit_zero _ ie)

theorem keyOf_iv : (keyOf c nz lo iv ie r).getLsbD 2 = iv :=
  (getLsbD_append_keyBit_succ _ r 1).trans <| (getLsbD_append_keyBit_succ _ ie 0).trans <|
    getLsbD_append_keyBit_zero _ iv

theorem keyOf_lo : (keyOf c nz lo iv ie r).getLsbD 3 = lo :=
  (getLsbD_append_keyBit_succ _ r 2).trans <| (getLsbD_append_keyBit_succ _ ie 1).trans <|
    (getLsbD_append_keyBit_succ _ iv 0).trans <| getLsbD_append_keyBit_zero _ lo

theorem keyOf_nz : (keyOf c nz lo iv ie r).getLsbD 4 = nz :=
  (getLsbD_append_keyBit_succ _ r 3).trans <| (getLsbD_append_keyBit_succ _ ie 2).trans <|
    (getLsbD_append_keyBit_succ _ iv 1).trans <| (getLsbD_append_keyBit_succ _ lo 0).trans <|
    getLsbD_append_keyBit_zero _ nz

end

/-- A key is made of its fields. -/
theorem keyOf_fields (k : BitVec 8) :
    keyOf (k.extractLsb' 5 3) (k.getLsbD 4) (k.getLsbD 3) (k.getLsbD 2) (k.getLsbD 1) (k.getLsbD 0) = k := by
  revert k; decide

/-- `T` is below 16 exactly if its two high bits are 0 (R65). -/
theorem loadRound_iff_highBits (t : BitVec 6) : t.toNat < 16 ↔ t.extractLsb' 4 2 = 0b00#2 := by
  rw [← BitVec.toNat_inj, BitVec.extractLsb'_toNat, Nat.shiftRight_eq_div_pow]
  have := t.isLt
  simp only [BitVec.toNat_ofNat]
  omega

/-- Settles O6: the key is made of these fields. -/
theorem dispatchKeyFields : Obligations.DispatchKeyFields := by
  intro s
  have low : s.dispatchKey.getLsbD 3 = decide (s.T.toNat < 16) := keyOf_lo ..
  refine ⟨keyOf_state .., ?nz, low, ?highBits, keyOf_iv .., keyOf_ie .., keyOf_ordy ..⟩
  case nz => rw [State.dispatchKey, keyOf_nz, State.noBlocksLeft, beq_eq_decide, ← decide_not]
  case highBits => rw [low]; exact decide_eq_decide.mpr (loadRound_iff_highBits s.T)

/-! ### The keys of the controller states -/

/-- The STEP operation of a controller state and the free bits of the key (R66). -/
def Phase.keyOperation (ph : Phase) (nz lo iv ie r : Bool) : Instr :=
  match ph with
  | .idle => .holdIdle nz lo iv ie r
  | .awaitingBlock => if nz then .beginBlock lo iv ie r else if r then .finish lo iv ie else .waitOut lo iv ie
  | .expandingSchedule =>
    if lo then (if iv then .schedLoad nz ie r else if ie then .underrun nz r else .waitIn nz r)
    else .schedExpand nz iv ie r
  | .compressing => .round nz lo iv ie r
  | .folding => .fold nz lo iv ie r
  | .done => .holdDone nz lo iv ie r
  | .failed => .holdFailed nz lo iv ie r

theorem decodeKey_code (ph : Phase) (nz lo iv ie r : Bool) :
    decodeKey (keyOf ph.code nz lo iv ie r) = .ok (ph.keyOperation nz lo iv ie r) := by
  cases ph
  case idle => exact decodeKey_idle ..
  case awaitingBlock => exact decodeKey_awaitingBlock ..
  case expandingSchedule => exact decodeKey_expandingSchedule ..
  case compressing => exact decodeKey_compressing ..
  case folding => exact decodeKey_folding ..
  case done => exact decodeKey_done ..
  case failed => exact decodeKey_failed ..

/-- The encoder's word for the operation of a key is that key: the bits its row fixes are those that select it. -/
theorem encode_keyOperation (ph : Phase) (nz lo iv ie r : Bool) :
    encode (ph.keyOperation nz lo iv ie r) = .step (keyOf ph.code nz lo iv ie r) := by
  cases ph
  case idle | compressing | folding | done | failed => rfl
  case awaitingBlock => cases nz <;> cases r <;> rfl
  case expandingSchedule => cases lo <;> cases iv <;> cases ie <;> rfl

/-- A key has the reserved state code, or is the key of a controller state. -/
theorem key_cases (k : BitVec 8) :
    k.extractLsb' 5 3 = 0b111#3 ∨ ∃ (ph : Phase) (nz lo iv ie r : Bool), k = keyOf ph.code nz lo iv ie r := by
  rcases code_cases (k.extractLsb' 5 3) with reserved | ⟨ph, code⟩
  · exact .inl reserved
  · exact .inr ⟨ph, _, _, _, _, _, by rw [code, keyOf_fields]⟩

theorem reservedCode_iff (k : BitVec 8) : k.extractLsb' 5 3 = 0b111#3 ↔ 0xE0 ≤ k.toNat := by
  rw [← BitVec.toNat_inj, BitVec.extractLsb'_toNat, Nat.shiftRight_eq_div_pow]
  have := k.isLt
  simp only [BitVec.toNat_ofNat]
  omega

/-- The number of rows a key matches, over all 256 keys (R71). -/
theorem matchingRows_length (k : BitVec 8) :
    (stepRows.filter (fun r => r.matchesKey k)).length = if k.toNat ≤ 0xDF then 1 else 0 := by
  revert k; decide

/-- The decoder refuses by name a key that no row matches. -/
theorem decodeKey_reserved {k : BitVec 8} (reserved : 0xE0 ≤ k.toNat) : decodeKey k = .error (.reservedKey k) := by
  have noRow : stepRows.filter (fun r => r.matchesKey k) = [] := by
    rw [← List.length_eq_zero_iff, matchingRows_length, if_neg (by omega)]
  have notFound : stepRows.find? (fun r => r.matchesKey k) = none := by
    rw [List.find?_eq_none]; exact List.filter_eq_nil_iff.mp noRow
  rw [decodeKey, notFound]

/-- Settles O3: the rows are counted key by key, and below 0xE0 a key is that of a controller state. -/
theorem stepRowsDisjointAndTotal : Obligations.StepRowsDisjointAndTotal := by
  refine fun k => ⟨matchingRows_length k, decodeKey_reserved, fun below => ?_⟩
  rcases key_cases k with reserved | ⟨ph, nz, lo, iv, ie, r, rfl⟩
  · have := (reservedCode_iff k).mp reserved
    omega
  · exact ⟨_, decodeKey_code ph nz lo iv ie r⟩

/-! ### The command words -/

theorem decodeCmd_nop {w : CmdWord} (h : cmdOp w = opNop) : decodeCmd w = .nop (cmdNblocks w) (cmdSeed w) := by
  rw [decodeCmd, if_pos h]

theorem encode_decodeCmd (w : CmdWord) : encode (decodeCmd w) = .cmd w := by
  have word {op : BitVec 2} (h : cmdOp w = op) : OpWord.cmd (cmdWordOf op (cmdNblocks w) (cmdSeed w)) = .cmd w := by
    rw [← h, cmdWordOf_fields]
  rcases op_cases (cmdOp w) with op | op | op | op
  · rw [decodeCmd_nop op]; exact word op
  · rw [decodeCmd_start op]; exact word op
  · rw [decodeCmd_startSeeded op]; exact word op
  · rw [decodeCmd_cancel op]; exact word op

section
variable (n : BlockCount) (seed : BitVec 256)

theorem decodeCmd_cmdWordOf_nop : decodeCmd (cmdWordOf opNop n seed) = .nop n seed := by
  simp [decodeCmd_nop]

theorem decodeCmd_cmdWordOf_start : decodeCmd (cmdWordOf opStart n seed) = .start n seed := by
  simp [decodeCmd_start]

theorem decodeCmd_cmdWordOf_startSeeded : decodeCmd (cmdWordOf opStartSeeded n seed) = .startSeeded n seed := by
  simp [decodeCmd_startSeeded]

theorem decodeCmd_cmdWordOf_cancel : decodeCmd (cmdWordOf opCancel n seed) = .cancel n seed := by
  simp [decodeCmd_cancel]

end

/-! ### The round trips -/

/-- Settles O1: a command by the fields of its word, a STEP operation by the controller state of its key. -/
theorem decodeOfEncode : Obligations.DecodeOfEncode := by
  intro i
  cases i
  case reset => rfl
  case nop n seed => exact congrArg Except.ok (decodeCmd_cmdWordOf_nop n seed)
  case start n seed => exact congrArg Except.ok (decodeCmd_cmdWordOf_start n seed)
  case startSeeded n seed => exact congrArg Except.ok (decodeCmd_cmdWordOf_startSeeded n seed)
  case cancel n seed => exact congrArg Except.ok (decodeCmd_cmdWordOf_cancel n seed)
  case beginBlock lo iv ie r => exact decodeKey_awaitingBlock true lo iv ie r
  case finish lo iv ie => exact decodeKey_awaitingBlock false lo iv ie true
  case waitOut lo iv ie => exact decodeKey_awaitingBlock false lo iv ie false
  case schedLoad nz ie r => exact decodeKey_expandingSchedule nz true true ie r
  case underrun nz r => exact decodeKey_expandingSchedule nz true false true r
  case waitIn nz r => exact decodeKey_expandingSchedule nz true false false r
  case schedExpand nz iv ie r => exact decodeKey_expandingSchedule nz false iv ie r
  case round nz lo iv ie r => exact decodeKey_compressing nz lo iv ie r
  case fold nz lo iv ie r => exact decodeKey_folding nz lo iv ie r
  case holdIdle nz lo iv ie r => exact decodeKey_idle nz lo iv ie r
  case holdDone nz lo iv ie r => exact decodeKey_done nz lo iv ie r
  case holdFailed nz lo iv ie r => exact decodeKey_failed nz lo iv ie r

theorem encode_of_decodePin {rst : BitVec 1} {i : Instr} (h : decodePin rst = .ok i) : encode i = .pin rst := by
  unfold decodePin at h
  split_ifs at h with asserted
  cases h
  rw [asserted]; rfl

theorem encode_of_decodeKey {k : BitVec 8} {i : Instr} (h : decodeKey k = .ok i) : encode i = .step k := by
  rcases key_cases k with reserved | ⟨ph, nz, lo, iv, ie, r, rfl⟩
  · rw [decodeKey_reserved ((reservedCode_iff k).mp reserved)] at h
    cases h
  · rw [decodeKey_code] at h
    cases h
    exact encode_keyOperation ..

/-- Settles O2, by the format. -/
theorem encodeOfDecode : Obligations.EncodeOfDecode := by
  intro o i h
  cases o with
  | pin rst => exact encode_of_decodePin h
  | cmd w => cases h; exact encode_decodeCmd w
  | step k => exact encode_of_decodeKey h

/-- Settles O4: each command word is the one with the named fields, and each key that of its controller state. -/
theorem specWordsDecode : Obligations.SpecWordsDecode := by
  refine ⟨rfl, ?start, ?startSeeded, ?cancel, ?underrun, ?finish, ?waitOut⟩
  case start => exact decodeOfEncode (.start 1#32 0#256)
  case startSeeded =>
    exact decodeOfEncode
      (.startSeeded 1#32 0x85e655d6417a17953363376a624cde5c76e09589cac5f811cc4b32c1f20e533a#256)
  case cancel => exact decodeOfEncode (.cancel 0#32 0#256)
  case underrun => exact decodeOfEncode (.underrun true true)
  case finish => exact decodeOfEncode (.finish true false false)
  case waitOut => exact decodeOfEncode (.waitOut true false false)

end Sys2Proof.Machine
end

