-- ==== Sys2Proof/Proofs/Selection.lean ====
section
/-!
PROOFS. A step runs the operation it selects (R70), IN and OUT transfer at SCHED_LOAD and FINISH only, and CANCEL stands
before the internal operation; no step raises BlockCountMismatch (R152).
-/
namespace Sys2Proof.Machine

/-! ### The step from its selection -/

theorem step_eq_exec {s : State} {i : Instr} (hsel : selection s = .ok (none, i)) :
    step s = andThen (exec i s) (fun t => .next t.advance) := by
  rw [step, hsel]; rfl

theorem step_eq_exec_nop {s : State} {m i : Instr} (hsel : selection s = .ok (some m, i)) :
    step s = andThen (andThen (exec m s) (exec i)) (fun t => .next t.advance) := by
  rw [step, hsel]; rfl

/-- Where no command is offered, or a START to a busy CORE, the selection is the operation of the key alone. -/
theorem selection_internal_of_noCommand {s : State} (rst : s.pins.rst = false)
    (idleCmd : s.pins.cmdValid = false ∨
      ((cmdOp s.pins.cmdWord = opStart ∨ cmdOp s.pins.cmdWord = opStartSeeded) ∧ s.busy = true)) :
    selection s = .ok (none, s.internalOp) := by
  have noCommand : (s.cancelOffered || s.startAccepted) = false := by
    rcases idleCmd with invalid | ⟨op | op, busy⟩
    · simp [State.cancelOffered, State.startAccepted, invalid]
    all_goals simp [State.cancelOffered, startAccepted_of_busy busy, op, opStart, opStartSeeded, opCancel]
  have noNop : s.nopOffered = false := by
    rcases idleCmd with invalid | ⟨op | op, -⟩
    · simp [State.nopOffered, invalid]
    all_goals simp [State.nopOffered, op, opStart, opStartSeeded, opNop]
  rw [selection_internal rst noCommand, noNop]; rfl

/-- Where a NOP is offered, it is selected before the operation of the key (log 12). -/
theorem selection_internal_of_nop {s : State} (rst : s.pins.rst = false) (valid : s.pins.cmdValid = true)
    (op : cmdOp s.pins.cmdWord = opNop) :
    selection s = .ok (some (decodeCmd s.pins.cmdWord), s.internalOp) := by
  have noCommand : (s.cancelOffered || s.startAccepted) = false := by
    simp [State.cancelOffered, State.startAccepted, op, opNop, opStart, opStartSeeded, opCancel]
  have nop : s.nopOffered = true := by simp [State.nopOffered, valid, op]
  rw [selection_internal rst noCommand, nop]; rfl

/-- Settles O9, by the cases of the selection. -/
theorem stepRunsSelectedOperation : Obligations.StepRunsSelectedOperation := by
  intro s i
  refine ⟨?reset, ?cancel, ?start, ?internal, ?nop⟩
  case reset =>
    rintro rst ⟨⟩
    exact step_eq_exec (selection_reset rst)
  case cancel =>
    rintro rst valid op ⟨⟩
    have offered : s.cancelOffered = true := (cancelOffered_iff s).mpr ⟨valid, op⟩
    exact step_eq_exec (selection_command rst (by simp [offered]))
  case start =>
    rintro rst valid op rest ⟨⟩
    have accepted : s.startAccepted = true := (startAccepted_iff s).mpr ⟨valid, op, rest⟩
    exact step_eq_exec (selection_command rst (by simp [accepted]))
  case internal =>
    intro rst idleCmd key
    cases (decode_dispatchKey_internalOp s).symm.trans key
    exact step_eq_exec (selection_internal_of_noCommand rst idleCmd)
  case nop =>
    rintro rst valid op m ⟨⟩ key
    cases (decode_dispatchKey_internalOp s).symm.trans key
    exact step_eq_exec_nop (selection_internal_of_nop rst valid op)

/-! ### The transfers of the selected operation -/

/-- The operation is SCHED_LOAD. -/
def IsSchedLoad (i : Instr) : Prop := ∃ nz ie r, i = .schedLoad nz ie r

/-- The operation is FINISH. -/
def IsFinish (i : Instr) : Prop := ∃ lo iv ie, i = .finish lo iv ie

theorem decodeCmd_no_beat (w : CmdWord) : ¬ IsSchedLoad (decodeCmd w) ∧ ¬ IsFinish (decodeCmd w) := by
  unfold decodeCmd
  split_ifs <;> simp [IsSchedLoad, IsFinish]

/-- The key selects SCHED_LOAD exactly where a Word is wanted and offered (R42, R66). -/
theorem isSchedLoad_internalOp_iff (s : State) :
    IsSchedLoad s.internalOp ↔ (s.pins.inValid && s.inReady) = true := by
  cases phase : s.STATE
  case expandingSchedule =>
    simp only [State.internalOp, State.inReady, phase]
    split_ifs with load valid ended <;> simp [IsSchedLoad, *]
  case awaitingBlock =>
    simp only [State.internalOp, State.inReady, phase]
    split_ifs <;> simp [IsSchedLoad]
  case idle | compressing | folding | done | failed => simp [State.internalOp, State.inReady, phase, IsSchedLoad]

/-- The key selects FINISH exactly where a digest is offered and wanted (R44, R66). -/
theorem isFinish_internalOp_iff (s : State) :
    IsFinish s.internalOp ↔ (s.outValid && s.pins.outReady) = true := by
  cases phase : s.STATE
  case awaitingBlock =>
    simp only [State.internalOp, State.outValid, phase]
    split_ifs with more ready <;> simp_all [IsFinish]
  case expandingSchedule =>
    simp only [State.internalOp, State.outValid, phase]
    split_ifs <;> simp [IsFinish]
  case idle | compressing | folding | done | failed => simp [State.internalOp, State.outValid, phase, IsFinish]

/-- RESET and the commands let nothing happen on IN and OUT; beside them the internal operation is selected (R70). -/
theorem beats_of_selection {s : State} {n : Option Instr} {i : Instr} (hsel : selection s = .ok (n, i)) :
    ((transfers s).inp = none ∧ (transfers s).out = none ∧ ¬ IsSchedLoad i ∧ ¬ IsFinish i) ∨
      ((transfers s).inp = s.wordTaken ∧ (transfers s).out = s.digestGiven ∧ i = s.internalOp) := by
  cases rst : s.pins.rst
  case true =>
    cases (selection_reset rst).symm.trans hsel
    rw [transfers_of_rst rst]
    exact .inl ⟨rfl, rfl, nofun, nofun⟩
  case false =>
    cases offered : s.cancelOffered
    case true =>
      cases (selection_command rst (by simp [offered])).symm.trans hsel
      rw [transfers_of_cancel rst offered]
      exact .inl ⟨rfl, rfl, decodeCmd_no_beat _⟩
    case false =>
      cases accepted : s.startAccepted
      case true =>
        cases (selection_command rst (by simp [accepted])).symm.trans hsel
        rw [transfers_of_start rst accepted]
        exact .inl ⟨rfl, rfl, decodeCmd_no_beat _⟩
      case false =>
        cases (selection_internal rst (by simp [offered, accepted])).symm.trans hsel
        rw [transfers_of_internal rst offered accepted]
        exact .inr ⟨rfl, rfl, rfl⟩

theorem digestGiven_eq (s : State) :
    s.digestGiven = if s.outValid && s.pins.outReady then some (pack8 s.H) else none := by
  cases valid : s.outValid <;> simp [State.digestGiven, State.outData, valid]

/-- IN transfers the offered Word at SCHED_LOAD only, OUT the packed Digest State at FINISH only. -/
theorem beats_iff_of_selection {s : State} {n : Option Instr} {i : Instr} (hsel : selection s = .ok (n, i)) :
    (((transfers s).inp = some s.pins.inData ↔ IsSchedLoad i) ∧ ((transfers s).inp = none ↔ ¬ IsSchedLoad i)) ∧
      (((transfers s).out = some (pack8 s.H) ↔ IsFinish i) ∧ ((transfers s).out = none ↔ ¬ IsFinish i)) := by
  rcases beats_of_selection hsel with ⟨noWord, noDigest, notLoad, notFinish⟩ | ⟨word, digest, rfl⟩
  · simp [noWord, noDigest, notLoad, notFinish]
  · rw [word, digest, isSchedLoad_internalOp_iff, isFinish_internalOp_iff, State.wordTaken, digestGiven_eq]
    constructor
    · cases s.pins.inValid && s.inReady <;> simp
    · cases s.outValid && s.pins.outReady <;> simp

theorem transfers_cmd_iff (s : State) : (transfers s).cmd = some s.pins.cmdWord ↔
    s.pins.rst = false ∧ s.pins.cmdValid = true ∧ s.cmdReady (cmdOp s.pins.cmdWord) = true := by
  simp [transfers, and_assoc]

/-- Settles O15: RESET and the commands are neither operation, and the internal one is by its key. -/
theorem transfersFollowTheOperation : Obligations.TransfersFollowTheOperation := by
  intro s n i hsel
  obtain ⟨⟨word, noWord⟩, digest, noDigest⟩ := beats_iff_of_selection hsel
  exact ⟨word, noWord, digest, noDigest, transfers_cmd_iff s⟩

/-! ### CANCEL and the internal operation -/

/-- Settles O41: with a CANCEL offered to a busy CORE one case of the step is left. -/
theorem cancelBeatsTheInternalOperation : Obligations.CancelBeatsTheInternalOperation := by
  intro s t busy rst offered hstep
  cases (step_of_stepResult (.cancelBusy rst offered busy)).symm.trans hstep
  rw [transfers_of_cancel rst offered]
  exact ⟨rfl, rfl, rfl, rfl⟩

/-! ### The codes of ERR that a step writes -/

theorem internalResult_ERR {s v : State} (run : InternalResult s v) : v.ERR = s.ERR ∨ v.ERR = .inputUnderrun := by
  cases run with
  | underrun => exact .inr rfl
  | hold | beginBlock | finish | schedLoad | schedExpand | round | lastRound | fold => exact .inl rfl

theorem stepResult_ERR {s v : State} (result : StepResult s v) :
    v.ERR = s.ERR ∨ v.ERR = .none ∨ v.ERR = .inputUnderrun ∨ v.ERR = .cancelled := by
  cases result with
  | reset | start => exact .inr (.inl rfl)
  | cancelBusy => exact .inr (.inr (.inr rfl))
  | cancelRest => exact .inl rfl
  | internal _ _ _ run =>
    obtain ⟨-, -, -, -, -, -, sameErr⟩ := sameRegisters_afterNop s
    rcases internalResult_ERR run with unchanged | underrun
    · exact .inl (unchanged.trans sameErr)
    · exact .inr (.inr (.inl underrun))

/-- Settles O43: a step leaves ERR or writes one of three other codes. -/
theorem blockCountMismatchIsNeverRaised : Obligations.BlockCountMismatchIsNeverRaised := by
  intro s t hstep mismatch
  obtain ⟨v, result, rfl⟩ := stepResult_of_step hstep
  rw [advance_ERR] at mismatch
  rcases stepResult_ERR result with unchanged | written
  · exact unchanged.symm.trans mismatch
  · simp [mismatch] at written

end Sys2Proof.Machine
end

