-- ==== Sys2Proof/Proofs/Padding.lean ====
section
/-!
PROOFS. The padding of a message (95_test_vectors.md section 1, log 19): its parts, its length, and the Words of it that
HASH pushes (R74).
-/
namespace Sys2Proof.Machine

/-- The message comes first, then 0x80; the zeros and the eight bytes of the bit length make the rest. -/
theorem padBytes_parts (m : List (BitVec 8)) :
    ∃ rest, padBytes m = m ++ 0x80#8 :: rest ∧ rest.length = (64 - (m.length + 9) % 64) % 64 + 8 :=
  ⟨_, by rw [padBytes, List.append_assoc, List.append_assoc]; rfl, by simp⟩

theorem padBytes_length (m : List (BitVec 8)) : (padBytes m).length = 64 * messageBlocks m := by
  obtain ⟨rest, parts, length⟩ := padBytes_parts m
  rw [parts, List.length_append, List.length_cons, length, messageBlocks]
  omega

/-- Four bytes make a Word, fewer make none. -/
theorem wordsOfBytes_length : ∀ bytes : List (BitVec 8), (wordsOfBytes bytes).length = bytes.length / 4
  | [] | [_] | [_, _] | [_, _, _] => by simp [wordsOfBytes]
  | b0 :: b1 :: b2 :: b3 :: rest => by
    have ih := wordsOfBytes_length rest
    simp only [wordsOfBytes, List.length_cons, ih]
    omega

theorem messageLines_length (m : List (BitVec 8)) : (messageLines m).length = 16 * messageBlocks m := by
  rw [messageLines, List.length_map, wordsOfBytes_length, padBytes_length]
  omega

/-- Settles O54: the parts of the padding, their lengths, and the count that 32 bits hold below `2 ^ 32`. -/
theorem paddedMessageFillsItsBlocks : Obligations.PaddedMessageFillsItsBlocks := by
  intro m
  obtain ⟨rest, parts, -⟩ := padBytes_parts m
  refine ⟨padBytes_length m, ⟨_, parts.symm⟩, ?marker, messageLines_length m, _, rfl, ?count⟩
  case marker => simp [parts]
  case count => exact fun fits => (BitVec.toNat_ofNat _ _).trans (Nat.mod_eq_of_lt fits)

end Sys2Proof.Machine
end

