-- ==== Sys2Proof/Proofs/Schedule.lean ====
section
/-!
PROOFS. The message schedule: the effect of SCHED_LOAD and SCHED_EXPAND on the registers (R84 to R86), the steps that
select them, and the recurrence of the schedule (R89, R90).
-/
namespace Sys2Proof.Machine

/-! ### The step of an undisturbed busy CORE -/

/-- The internal operation leaves the environment's port values alone. -/
theorem internalResult_environment {s v : State} (run : InternalResult s v) :
    v.script = s.script ∧ v.tick = s.tick := by
  cases run with
  | hold | beginBlock | finish | schedLoad | underrun | schedExpand | round | lastRound | fold => exact ⟨rfl, rfl⟩

theorem afterNop_environment (s : State) : s.afterNop.script = s.script ∧ s.afterNop.tick = s.tick :=
  ⟨afterNop_congr _ (fun _ _ => rfl) s, afterNop_congr _ (fun _ _ => rfl) s⟩

/-- While busy and undisturbed a step is its internal operation, after a NOP if one is accepted (R70). -/
theorem stepResult_of_undisturbed {s v : State} (busy : s.busy = true) (free : s.undisturbed)
    (run : InternalResult s.afterNop v) : StepResult s v :=
  .internal free.1 free.2 (startAccepted_of_busy busy) run

/-- Such a step makes every effect that its internal operation makes. -/
theorem stepMakes_of_internal {E : State → State → Prop} {s v : State} (busy : s.busy = true) (free : s.undisturbed)
    (run : InternalResult s.afterNop v) (effect : E s v.advance) : StepMakes E s := by
  obtain ⟨nopScript, nopTick⟩ := afterNop_environment s
  obtain ⟨runScript, runTick⟩ := internalResult_environment run
  refine ⟨v.advance, step_of_stepResult (stepResult_of_undisturbed busy free run), effect, ?_, ?_⟩
  · rw [advance_script, runScript, nopScript]
  · rw [advance_tick, runTick, nopTick]

theorem transfers_of_undisturbed {s : State} (busy : s.busy = true) (free : s.undisturbed) :
    transfers s = ⟨if s.nopOffered then some s.pins.cmdWord else none, s.wordTaken, s.digestGiven⟩ :=
  transfers_of_internal free.1 free.2 (startAccepted_of_busy busy)

theorem busy_of_expandingSchedule {s : State} (phase : s.STATE = .expandingSchedule) : s.busy = true := by
  simp [State.busy, phase]

/-! ### The effect on the registers -/

theorem sameRegisters_refl (s : State) : SameRegisters s s := ⟨rfl, rfl, rfl, rfl, rfl, rfl, rfl⟩

/-- Shifting `w` in, Word by Word (R84). -/
theorem shiftedIn_of_shiftIn {w : Word} {s t : State} (window : t.WIN = shiftIn s.WIN w) : ShiftedIn w s t := by
  simp only [ShiftedIn, window]
  exact ⟨shiftIn_get s.WIN w, shiftIn_last s.WIN w⟩

/-- Writing the shifted window and the phase has the effect of R85 and R86. The state `u` written to has the registers of
`s` (it is `s` after a NOP), and beside the registers `t` may differ from the one written (it has a record of its own). -/
theorem scheduleEffect_of_sameRegisters {w : Word} {s u t : State} (same : SameRegisters s u)
    (written : SameRegisters { u with WIN := shiftIn u.WIN w, STATE := .compressing } t) : ScheduleEffect w s t := by
  obtain ⟨hH, hV, hWIN, hT, hNREM, -, hERR⟩ := same
  obtain ⟨tH, tV, tWIN, tT, tNREM, tSTATE, tERR⟩ := written
  have window : t.WIN = shiftIn s.WIN w := by rw [tWIN, hWIN]
  exact ⟨shiftedIn_of_shiftIn window, tSTATE, tT.trans hT, tNREM.trans hNREM, tH.trans hH, tV.trans hV, tERR.trans hERR⟩

/-! ### SCHED_LOAD -/

/-- In a step that selects SCHED_LOAD, IN transfers the offered Word and OUT nothing (R42, R70). -/
theorem transfers_schedLoad {s : State} (phase : s.STATE = .expandingSchedule) (load : s.T.toNat < 16)
    (valid : s.pins.inValid = true) (free : s.undisturbed) :
    (transfers s).inp = some s.pins.inData ∧ (transfers s).out = none := by
  have ready : s.inReady = true := (inReady_iff s).mpr ⟨phase, load⟩
  constructor
  · rw [transfers_of_undisturbed (busy_of_expandingSchedule phase) free, State.wordTaken, valid, ready]; rfl
  · exact transfers_out_eq_none (.inr (by simp [phase]))

/-- Settles O26: the step is SCHED_LOAD, and its record is that of its transfers. -/
theorem schedLoadTakesTheWord : Obligations.SchedLoadTakesTheWord := by
  constructor
  · intro nz ie r s
    exact ⟨_, rfl, scheduleEffect_of_sameRegisters (sameRegisters_refl s) (sameRegisters_refl _), rfl, rfl, rfl⟩
  · intro s phase load valid free
    have busy := busy_of_expandingSchedule phase
    obtain ⟨word, noDigest⟩ := transfers_schedLoad phase load valid free
    obtain ⟨-, -, -, sameT, -⟩ := sameRegisters_afterNop s
    have run := InternalResult.schedLoad (s := s.afterNop) (by simp [phase]) (by rwa [sameT]) (by simp [valid])
    have trace := stepResult_trace (stepResult_of_undisturbed busy free run)
    rw [Transfers.events, word, noDigest] at trace
    rw [State.inTake, afterNop_pins] at run trace
    refine ⟨word, noDigest, stepMakes_of_internal busy free run ⟨?effect, ?trace⟩⟩
    case effect => exact scheduleEffect_of_sameRegisters (sameRegisters_afterNop s) (sameRegisters_refl _)
    case trace => simpa using trace

/-! ### SCHED_EXPAND -/

/-- Settles O27: the step is SCHED_EXPAND, whose Word is that of the window before the shift. -/
theorem schedExpandComputesTheWord : Obligations.SchedExpandComputesTheWord := by
  constructor
  · intro nz iv ie r s
    exact ⟨_, rfl, scheduleEffect_of_sameRegisters (sameRegisters_refl s) (sameRegisters_refl _), rfl, rfl,
      (List.append_nil _).symm⟩
  · intro s phase expand free
    obtain ⟨-, -, sameWIN, sameT, -⟩ := sameRegisters_afterNop s
    have run := InternalResult.schedExpand (s := s.afterNop) (by simp [phase]) (by rwa [sameT])
    refine ⟨stepMakes_of_internal (busy_of_expandingSchedule phase) free run ?effect, ?notReady⟩
    case effect =>
      change ScheduleEffect (expandWord s.WIN) s _
      rw [← sameWIN]
      exact scheduleEffect_of_sameRegisters (sameRegisters_afterNop s) (sameRegisters_refl _)
    case notReady => simp [State.inReady, State.loadRound, expand]

/-! ### The recurrence -/

/-- The recurrence of R89, at a round's own index. -/
theorem sched_of_le {t : Nat} (M : Words16) (ht : 16 ≤ t) :
    sched M t = sigma1 (sched M (t - 2)) + sched M (t - 7) + sigma0 (sched M (t - 15)) + sched M (t - 16) := by
  obtain ⟨n, rfl⟩ : ∃ n, t = n + 16 := ⟨t - 16, by omega⟩
  exact sched_step M n

/-- The zero block's schedule is zero (R90): the recurrence has no constant term. -/
theorem sched_zero (t : Nat) : sched (Vector.replicate 16 0#32) t = 0#32 := by
  induction t using Nat.strongRecOn with
  | ind t ih =>
    rcases Nat.lt_or_ge t 16 with input | later
    · exact (sched_input _ ⟨t, input⟩).trans (Vector.getElem_replicate input)
    · rw [sched_of_le _ later, ih (t - 2) (by omega), ih (t - 7) (by omega), ih (t - 15) (by omega),
        ih (t - 16) (by omega), sigma0_zero, sigma1_zero]
      rfl

/-- `W[16]` is computed from four Words of the block (R90). -/
theorem sched_sixteen (M : Words16) : sched M 16 = sigma1 M[14] + M[9] + sigma0 M[1] + M[0] := sched_step M 0

/-- Settles O51, from the two cases of the schedule. -/
theorem scheduleRecurrence : Obligations.ScheduleRecurrence := by
  refine ⟨sched_input, fun M t low _ => sched_of_le M low, fun t _ => sched_zero t, ?_⟩
  intro M N at0 at1 at9 at14
  rw [sched_sixteen, sched_sixteen, at0, at1, at9, at14]

end Sys2Proof.Machine
end

