-- ==== Sys2Proof/Proofs/Round.lean ====
section
/-!
PROOFS. The round: the functions Ch and Maj (R99, R100), the round as a pure function (R102 to R104), and the effect of
ROUND on the registers (R101).
-/
namespace Sys2Proof.Machine

/-! ### Choose and majority -/

/-- `Ch` selects (R99): `x` chooses between `y` and `z`, bit by bit. -/
theorem getLsbD_Ch (x y z : Word) {i : Nat} (hi : i < 32) :
    (Ch x y z).getLsbD i = if x.getLsbD i then y.getLsbD i else z.getLsbD i := by
  simp only [Ch, BitVec.getLsbD_xor, BitVec.getLsbD_and, BitVec.getLsbD_not, decide_eq_true hi]
  cases x.getLsbD i <;> simp

/-- `Maj` is the majority (R100), bit by bit. -/
theorem getLsbD_Maj (x y z : Word) (i : Nat) :
    (Maj x y z).getLsbD i = decide (2 ≤ (x.getLsbD i).toNat + (y.getLsbD i).toNat + (z.getLsbD i).toNat) := by
  simp only [Maj, BitVec.getLsbD_xor, BitVec.getLsbD_and]
  generalize x.getLsbD i = a, y.getLsbD i = b, z.getLsbD i = c
  revert a b c
  decide

@[simp] theorem Ch_same (x y : Word) : Ch x y y = y :=
  BitVec.eq_of_getLsbD_eq fun i hi => by rw [getLsbD_Ch x y y hi, ite_self]

@[simp] theorem Maj_same (x : Word) : Maj x x x = x := by simp [Maj]

theorem Ch_eq_xor (x y z : Word) : Ch x y z = z ^^^ (x &&& (y ^^^ z)) := by
  refine BitVec.eq_of_getLsbD_eq fun i hi => ?_
  rw [getLsbD_Ch x y z hi, BitVec.getLsbD_xor, BitVec.getLsbD_and, BitVec.getLsbD_xor]
  cases x.getLsbD i
  · simp
  · simp [Bool.xor_comm (y.getLsbD i)]

theorem Ch_eq_or (x y z : Word) : Ch x y z = (x &&& y) ||| (~~~x &&& z) := by
  refine BitVec.eq_of_getLsbD_eq fun i hi => ?_
  rw [getLsbD_Ch x y z hi, BitVec.getLsbD_or, BitVec.getLsbD_and, BitVec.getLsbD_and, BitVec.getLsbD_not,
    decide_eq_true hi]
  cases x.getLsbD i <;> simp

/-- No bit is in both terms, so that their sum has no carry. -/
theorem Ch_eq_add (x y z : Word) : Ch x y z = (x &&& y) + (~~~x &&& z) := by
  have disjoint : (x &&& y) &&& (~~~x &&& z) = 0#32 := by
    calc (x &&& y) &&& (~~~x &&& z)
        = (x &&& ~~~x) &&& (y &&& z) := by ac_rfl
      _ = 0#32 := by rw [BitVec.and_not_self]; exact BitVec.zero_and
  rw [Ch_eq_or, BitVec.add_eq_or_of_and_eq_zero _ _ disjoint]

theorem Maj_eq_or (x y z : Word) : Maj x y z = (x &&& y) ||| (x &&& z) ||| (y &&& z) := by
  refine BitVec.eq_of_getLsbD_eq fun i _ => ?_
  simp only [Maj, BitVec.getLsbD_or, BitVec.getLsbD_xor, BitVec.getLsbD_and]
  generalize x.getLsbD i = a, y.getLsbD i = b, z.getLsbD i = c
  revert a b c
  decide

theorem Maj_eq_xor (x y z : Word) : Maj x y z = (x &&& y) ^^^ (z &&& (x ^^^ y)) := by
  refine BitVec.eq_of_getLsbD_eq fun i _ => ?_
  simp only [Maj, BitVec.getLsbD_xor, BitVec.getLsbD_and, Bool.and_comm (z.getLsbD i), Bool.and_xor_distrib_right,
    Bool.xor_assoc]

theorem Maj_swap_left (x y z : Word) : Maj x y z = Maj y x z := by unfold Maj; ac_rfl

theorem Maj_swap_right (x y z : Word) : Maj x y z = Maj x z y := by unfold Maj; ac_rfl

/-- Settles O48: the two bit by bit, and each other form by its own lemma. -/
theorem chooseAndMajority : Obligations.ChooseAndMajority :=
  ⟨fun x y z i => ⟨getLsbD_Ch x y z i.isLt, getLsbD_Maj x y z i⟩,
    fun x y z => ⟨Ch_eq_xor x y z, Ch_eq_or x y z, Ch_eq_add x y z, Maj_eq_or x y z, Maj_eq_xor x y z,
      Maj_swap_left x y z, Maj_swap_right x y z⟩⟩

/-! ### The round as a pure function -/

/-- The inverse reads `T1` off the round's result: the first Word is `T1 + T2`, and `T2` is that of Words 1 to 3. -/
theorem roundInverse_roundOf (v : Words8) (k w : Word) : roundInverse (roundOf v k w) k w = v := by
  have recovered : roundT1 v k w + roundT2 v - roundT2 v = roundT1 v k w := BitVec.add_sub_cancel _ _
  apply words8_eq
  intro i
  match i with
  | 0 | 1 | 2 | 4 | 5 | 6 => rfl
  | 3 =>
    change v[3] + roundT1 v k w - (roundT1 v k w + roundT2 v - roundT2 v) = v[3]
    rw [recovered, BitVec.add_sub_cancel]
  | 7 =>
    change roundT1 v k w + roundT2 v - roundT2 v - k - Sigma1 v[4] - Ch v[4] v[5] v[6] - w = v[7]
    rw [recovered, roundT1]
    ring

/-- The inverse is the Working State whose `T2` is that of Words 1 to 3 and whose `T1` is the rest of the first Word. -/
theorem roundT1_roundInverse (v : Words8) (k w : Word) :
    roundT1 (roundInverse v k w) k w = v[0] - roundT2 (roundInverse v k w) := by
  change k + Sigma1 v[5] + Ch v[5] v[6] v[7] +
    (v[0] - roundT2 (roundInverse v k w) - k - Sigma1 v[5] - Ch v[5] v[6] v[7] - w) + w = _
  ring

theorem roundOf_roundInverse (v : Words8) (k w : Word) : roundOf (roundInverse v k w) k w = v := by
  have readOff := roundT1_roundInverse v k w
  apply words8_eq
  intro i
  match i with
  | 0 =>
    change roundT1 (roundInverse v k w) k w + roundT2 (roundInverse v k w) = v[0]
    rw [readOff, BitVec.sub_add_cancel]
  | 4 =>
    change v[4] - (v[0] - roundT2 (roundInverse v k w)) + roundT1 (roundInverse v k w) k w = v[4]
    rw [readOff, BitVec.sub_add_cancel]
  | 1 | 2 | 3 | 5 | 6 | 7 => rfl

/-- Settles O49: the two compositions. -/
theorem roundIsInvertible : Obligations.RoundIsInvertible :=
  fun v k w => ⟨roundInverse_roundOf v k w, roundOf_roundInverse v k w⟩

/-- `T1` reads `k` and `w` through their sum (R102). -/
theorem roundT1_eq_sum (v : Words8) (k w : Word) :
    roundT1 v k w = (k + w) + (Sigma1 v[4] + Ch v[4] v[5] v[6] + v[7]) := by
  unfold roundT1; ac_rfl

theorem roundOf_congr_sum (v : Words8) {k w k' w' : Word} (sum : k + w = k' + w') :
    roundOf v k w = roundOf v k' w' := by
  simp only [roundOf, roundT1_eq_sum, sum]

/-- The Working States of R104: `x` four times, then `y` four times. -/
def fixedPoint (x y : Word) : Words8 := #v[x, x, x, x, y, y, y, y]

/-- For `y = x - Sigma0(x)` and the sum of R104, `T1` is `-Sigma0(x)`: `x + T1 = y` and `T1 + T2 = x`. -/
theorem roundOf_fixedPoint {x y k w : Word} (hy : y = x - Sigma0 x)
    (sum : k + w = -Sigma0 x - Sigma1 y - 2 * y) : roundOf (fixedPoint x y) k w = fixedPoint x y := by
  have t1 : roundT1 (fixedPoint x y) k w = -Sigma0 x := by
    calc roundT1 (fixedPoint x y) k w
        = (k + w) + (Sigma1 y + Ch y y y + y) := roundT1_eq_sum _ k w
      _ = -Sigma0 x := by rw [sum, Ch_same]; ring
  have t2 : roundT2 (fixedPoint x y) = Sigma0 x + x := congrArg (Sigma0 x + ·) (Maj_same x)
  have first : roundT1 (fixedPoint x y) k w + roundT2 (fixedPoint x y) = x := by rw [t1, t2]; ring
  have fifth : x + roundT1 (fixedPoint x y) k w = y := by rw [t1, hy]; ring
  change #v[roundT1 (fixedPoint x y) k w + roundT2 (fixedPoint x y), x, x, x,
    x + roundT1 (fixedPoint x y) k w, y, y, y] = #v[x, x, x, x, y, y, y, y]
  rw [first, fifth]

/-- Settles O50: both clauses through the sum `k + w` in `T1`. -/
theorem roundSumAndFixedPoints : Obligations.RoundSumAndFixedPoints :=
  ⟨fun v _ _ _ _ sum => roundOf_congr_sum v sum, fun _ _ _ sum => roundOf_fixedPoint rfl sum⟩

/-! ### The effect of ROUND -/

/-- The eight writes of ROUND are the round of R102 on the values before, whatever it does to `T` and the phase. -/
theorem roundEffect_of_roundOf {s t : State} (working : t.V = roundOf s.V (K s.T) s.WIN[15])
    (last : s.T.toNat = 63 → t.STATE = .folding ∧ t.T.toNat = 63)
    (more : s.T.toNat ≠ 63 → t.T.toNat = s.T.toNat + 1 ∧ t.STATE = .expandingSchedule)
    (frame : t.WIN = s.WIN ∧ t.H = s.H ∧ t.NREM = s.NREM ∧ t.ERR = s.ERR) : RoundEffect (K s.T) s t := by
  simp only [RoundEffect, working]
  exact ⟨rfl, rfl, rfl, rfl, rfl, rfl, rfl, rfl, last, more, frame⟩

/-- ROUND completes with the effect of R101, and transfers nothing. -/
theorem execRound_effect (s : State) : ∃ t, execRound s = .next t ∧ RoundEffect (K s.T) s t ∧ Moves [] s t := by
  have untouched : Moves [] s s := ⟨rfl, rfl, (List.append_nil _).symm⟩
  by_cases last : s.T = 63#6
  · exact ⟨_, execRound_last last,
      roundEffect_of_roundOf rfl (fun at63 => ⟨rfl, at63⟩) (fun not63 => absurd (by rw [last]; rfl) not63)
        ⟨rfl, rfl, rfl, rfl⟩, untouched⟩
  · have more : s.T.toNat < 63 := by bv_omega
    have counted : (s.T + 1#6).toNat = s.T.toNat + 1 := by bv_omega
    exact ⟨_, execRound_more more,
      roundEffect_of_roundOf rfl (fun at63 => absurd at63 more.ne) (fun _ => ⟨counted, rfl⟩) ⟨rfl, rfl, rfl, rfl⟩,
      untouched⟩

/-! ### The step of a busy CORE, the record apart -/

/-- A NOP accepted in the step changes the record alone (R130). -/
theorem afterNop_eq_withTrace (s : State) : s.afterNop = s.withTrace s.afterNop.trace := by
  rcases afterNop_cases s with unchanged | ⟨-, nop⟩
  · rw [unchanged]; rfl
  · rw [nop]; rfl

/-- The step of a busy, undisturbed CORE leaves what its internal operation leaves, but for the record: a NOP accepted
in the step stands in it before the operation's own transfers (R70). -/
theorem step_of_exec_internalOp {s v : State} (busy : s.busy = true) (free : s.undisturbed)
    (ran : exec s.internalOp s = .next v) :
    ∃ es, v.trace = s.trace ++ es ∧ step s = .next (v.withTrace (s.afterNop.trace ++ es)).advance := by
  obtain ⟨rst, noCancel⟩ := free
  obtain ⟨es, trace, other⟩ := exec_blindToTrace ran
  refine ⟨es, trace, ?_⟩
  rw [step_internal rst noCancel (startAccepted_of_busy busy) (decode_dispatchKey_internalOp s),
    afterNop_eq_withTrace, other, andThen_next]
  rfl

/-! ### The step that selects ROUND -/

/-- Settles O28: the step in Compressing is ROUND. -/
theorem roundTransformsTheWorkingState : Obligations.RoundTransformsTheWorkingState := by
  constructor
  · intro nz lo iv ie r s
    exact execRound_effect s
  · intro s phase free
    have busy : s.busy = true := by simp [State.busy, phase]
    obtain ⟨t, ran, effect, script, tick, -⟩ := execRound_effect s
    have selected : exec s.internalOp s = execRound s := by rw [State.internalOp, phase]; rfl
    obtain ⟨es, -, stepped⟩ := step_of_exec_internalOp busy free (selected.trans ran)
    exact ⟨_, stepped, effect, congrArg List.tail script, congrArg (· + 1) tick⟩

end Sys2Proof.Machine
end

