-- ==== Sys2Proof/Proofs/Block.lean ====
section
/-!
PROOFS. A block supplied without a wait is compressed into the Digest State in 130 steps (R105, R106, R115): BEGIN_BLOCK,
64 times a schedule step and ROUND, and FOLD. `InBlock` says what holds between any two of these steps.
-/
namespace Sys2Proof.Machine

/-! ### Runs of steps -/

/-- One more step at the end of a run. -/
theorem steps_succ_of_step {n : Nat} {s u t : State} (reached : steps n s = .next u) (stepped : step u = .next t) :
    steps (n + 1) s = .next t := by
  induction n generalizing s with
  | zero =>
    obtain rfl := Host.Outcome.next.inj reached
    rw [steps, stepped, andThen_next, steps]
  | succ n ih =>
    obtain ⟨v, first, -⟩ := step_result s
    rw [steps, first, andThen_next] at reached ⊢
    exact ih reached

/-- `n` steps from `s` use up `n` of its port values and lead to a state with the property. -/
def After (s : State) (n : Nat) (P : State → Prop) : Prop :=
  ∃ u, steps n s = .next u ∧ u.script = s.script.drop n ∧ P u

/-- The property is about the registers and the computation of the trace: the passing of a step, and commands in the
record that begin nothing, do not touch it. -/
def OfRegistersAndRun (P : State → Prop) : Prop :=
  ∀ (v : State) (tr : List Event), currentRun tr = currentRun v.trace → P v → P (v.withTrace tr).advance

/-- A NOP in the record is no part of the computation, whatever comes after it. -/
theorem currentRun_afterNop_append (s : State) (es : List Event) :
    currentRun (s.afterNop.trace ++ es) = currentRun (s.trace ++ es) := by
  have same : currentRun s.afterNop.trace = currentRun s.trace := by
    rcases afterNop_cases s with unchanged | ⟨op, nop⟩
    · rw [unchanged]
    · rw [nop]; exact currentRun_command (.inl op) _
  simp only [currentRun, List.foldl_append] at same ⊢
  rw [same]

/-- The step of a busy, undisturbed CORE makes what its internal operation makes, of the registers and the computation. -/
theorem step_of_internalResult {Q : State → Prop} (blind : OfRegistersAndRun Q) {s v : State} (busy : s.busy = true)
    (free : s.undisturbed) (run : InternalResult s v) (holds : Q v) :
    ∃ t, step s = .next t ∧ t.script = s.script.tail ∧ Q t := by
  obtain ⟨es, trace, stepped⟩ := step_of_exec_internalOp busy free (exec_internalOp_of_result run)
  obtain ⟨script, -⟩ := internalResult_environment run
  exact ⟨_, stepped, congrArg List.tail script, blind v _ (trace ▸ currentRun_afterNop_append s es) holds⟩

/-! ### The port values that supply a block -/

theorem pins_of_script_drop {u : State} {env : List Config.Pins} {n : Nat} {p : Config.Pins}
    (script : u.script = env.drop n) (hp : env[n]? = some p) : u.pins = p := by
  obtain ⟨inRange, rfl⟩ := List.getElem?_eq_some_iff.mp hp
  exact pins_cons u _ _ (script.trans (List.drop_eq_getElem_cons inRange))

theorem undisturbed_of_pins {s : State} (h : PinsUndisturbed s.pins) : s.undisturbed := by
  obtain ⟨rst, noCancel⟩ := h
  exact ⟨rst, Bool.eq_false_iff.mpr fun offered => noCancel ((cancelOffered_iff s).mp offered)⟩

section
variable {s : State} {M : Words16} (supplied : SuppliesBlock s.script M)
include supplied

/-- A further step of the block: undisturbed, with the port values of its place in the script. -/
theorem After.next {n : Nat} {P Q : State → Prop} (reached : After s n P) (inBlock : n < 130)
    (blind : OfRegistersAndRun Q)
    (operation : ∀ u, P u → s.script[n]? = some u.pins → u.busy = true ∧ ∃ v, InternalResult u v ∧ Q v) :
    After s (n + 1) Q := by
  obtain ⟨u, ran, script, holds⟩ := reached
  have inRange : n < s.script.length := inBlock.trans_le supplied.enough
  have here : s.script[n]? = some s.script[n] := List.getElem?_eq_getElem inRange
  have pins : u.pins = s.script[n] := pins_of_script_drop script here
  have free : PinsUndisturbed u.pins := by
    refine supplied.undisturbed _ (List.mem_of_getElem? (i := n) ?_)
    rw [List.getElem?_take_of_lt inBlock, here, pins]
  obtain ⟨busy, v, run, makes⟩ := operation u holds (by rw [here, pins])
  obtain ⟨t, stepped, tail, made⟩ := step_of_internalResult blind busy (undisturbed_of_pins free) run makes
  exact ⟨t, steps_succ_of_step ran stepped, by rw [tail, script, List.tail_drop], made⟩

/-- In the schedule step of round `t < 16` the Word `M[t]` is offered. -/
theorem word_of_supplied {t : Nat} (load : t < 16) {p : Config.Pins} (here : s.script[1 + 2 * t]? = some p) :
    p.inValid = true ∧ p.inData = M[t] := by
  obtain ⟨q, there, valid, word⟩ := supplied.words ⟨t, load⟩
  obtain rfl : p = q := Option.some.inj (here.symm.trans there)
  exact ⟨valid, word⟩

end

/-! ### Within the block -/

/-- The computation with more Words taken. -/
def Run.taking (ws : List Word) (r : Run) : Run := { r with words := r.words ++ ws }

theorem Run.taking_nil (r : Option Run) : r.map (Run.taking []) = r := by
  cases r <;> simp [Run.taking]

theorem Run.extend_word_taking (r : Option Run) (ws : List Word) (x : Word) :
    Run.extend (r.map (Run.taking ws)) (.word x) = r.map (Run.taking (ws ++ [x])) := by
  cases r <;> simp [Run.extend, Run.taking]

/-- What holds within the block `M` begun in `s`, when so many of its rounds are made and so many of its schedule Words
are in the window: `V` is that of R106, the window that of R87, and the block's Words so far are taken. -/
structure InBlock (s : State) (M : Words16) (ph : Phase) (rounds words : Nat) (u : State) : Prop where
  phase : u.STATE = ph
  index : u.T.toNat = min rounds 63
  working : u.V = roundsTo s.H M rounds
  window : windowHolds u.WIN M words
  digestState : u.H = s.H
  nrem : u.NREM = s.NREM
  err : u.ERR = s.ERR
  run : currentRun u.trace = (currentRun s.trace).map (Run.taking (M.toList.take words))

/-- What holds after the block `M` begun in `s` (R115). -/
structure BlockFolded (s : State) (M : Words16) (u : State) : Prop where
  phase : u.STATE = .awaitingBlock
  digestState : u.H = compress s.H M
  nrem : u.NREM = s.NREM - 1#32
  err : u.ERR = s.ERR
  run : currentRun u.trace = (currentRun s.trace).map (Run.taking M.toList)

section
variable {s u : State} {M : Words16} {t : Nat}

theorem inBlock_ofRegistersAndRun {ph : Phase} {rounds words : Nat} :
    OfRegistersAndRun (InBlock s M ph rounds words) := by
  rintro v tr same ⟨phase, index, working, window, digestState, nrem, err, run⟩
  exact ⟨phase, index, working, window, digestState, nrem, err, same.trans run⟩

theorem blockFolded_ofRegistersAndRun : OfRegistersAndRun (BlockFolded s M) := by
  rintro v tr same ⟨phase, digestState, nrem, err, run⟩
  exact ⟨phase, digestState, nrem, err, same.trans run⟩

/-- BEGIN_BLOCK enters the block: no round is made and no Word is taken. -/
theorem inBlock_beginBlock (M : Words16) (phase : s.STATE = .awaitingBlock) (more : s.NREM ≠ 0#32) :
    ∃ v, InternalResult s v ∧ InBlock s M .expandingSchedule 0 0 v :=
  ⟨_, .beginBlock phase more,
    ⟨rfl, rfl, rfl, windowHolds_zero _ M, rfl, rfl, rfl, (Run.taking_nil _).symm⟩⟩

/-- SCHED_LOAD brings the block's Word of its round into the window and into the computation. -/
theorem inBlock_schedLoad (h : InBlock s M .expandingSchedule t t u) (load : t < 16) (valid : u.pins.inValid = true)
    (word : u.pins.inData = M[t]) : ∃ v, InternalResult u v ∧ InBlock s M .compressing t (t + 1) v := by
  have index : u.T.toNat < 16 := by have := h.index; omega
  refine ⟨_, .schedLoad h.phase index valid,
    ⟨rfl, h.index, h.working, windowHolds_shiftIn h.window (fun _ _ => rfl) ?isSched, h.digestState, h.nrem, h.err, ?run⟩⟩
  case isSched => exact word.trans (sched_input M ⟨t, load⟩).symm
  case run =>
    have oneMore : M.toList.take (t + 1) = M.toList.take t ++ [M[t]] := by
      rw [List.take_succ_eq_append_getElem (by simpa using load), Vector.getElem_toList]
    change currentRun (u.trace ++ [.word u.pins.inData]) = _
    rw [currentRun_append, h.run, Run.extend_word_taking, word, oneMore]

/-- SCHED_EXPAND brings the schedule Word of its round into the window; the block's Words are all taken. -/
theorem inBlock_schedExpand (h : InBlock s M .expandingSchedule t t u) (expand : 16 ≤ t) :
    ∃ v, InternalResult u v ∧ InBlock s M .compressing t (t + 1) v := by
  have index : 16 ≤ u.T.toNat := by have := h.index; omega
  have allTaken : M.toList.take (t + 1) = M.toList.take t := by
    have length : M.toList.length = 16 := Vector.length_toList
    rw [List.take_of_length_le (by omega), List.take_of_length_le (by omega)]
  exact ⟨_, .schedExpand h.phase index,
    ⟨rfl, h.index, h.working,
      windowHolds_shiftIn h.window (fun _ _ => rfl) (expandWord_eq_sched h.window expand),
      h.digestState, h.nrem, h.err, allTaken ▸ h.run⟩⟩

/-- ROUND makes the round of R106: the window's newest Word is the schedule Word of the round. -/
theorem roundOf_of_inBlock (h : InBlock s M .compressing t (t + 1) u) (ht : t < 64) :
    roundOf u.V (K u.T) u.WIN[15] = roundsTo s.H M (t + 1) := by
  have index : u.T = BitVec.ofNat 6 t := by have := h.index; bv_omega
  rw [roundsTo_succ, ← h.working, windowHolds_newest h.window, index]

theorem inBlock_round (h : InBlock s M .compressing t (t + 1) u) (more : t < 63) :
    ∃ v, InternalResult u v ∧ InBlock s M .expandingSchedule (t + 1) (t + 1) v := by
  have index : u.T.toNat = t := by have := h.index; omega
  have counted : (u.T + 1#6).toNat = min (t + 1) 63 := by bv_omega
  exact ⟨_, .round h.phase (by omega),
    ⟨rfl, counted, roundOf_of_inBlock h (by omega), h.window, h.digestState, h.nrem, h.err, h.run⟩⟩

theorem inBlock_lastRound (h : InBlock s M .compressing 63 64 u) :
    ∃ v, InternalResult u v ∧ InBlock s M .folding 64 64 v := by
  have last : u.T = 63#6 := BitVec.eq_of_toNat_eq h.index
  exact ⟨_, .lastRound h.phase last,
    ⟨rfl, h.index, roundOf_of_inBlock h (by decide), h.window, h.digestState, h.nrem, h.err, h.run⟩⟩

/-- FOLD ends the block: the sum of R115. -/
theorem blockFolded_fold (h : InBlock s M .folding 64 64 u) : ∃ v, InternalResult u v ∧ BlockFolded s M v := by
  have compressed : add8 u.H u.V = compress s.H M := by rw [h.digestState, h.working]; rfl
  have allTaken : M.toList.take 64 = M.toList := List.take_of_length_le (by simp)
  exact ⟨_, .fold h.phase, ⟨rfl, compressed, congrArg (· - 1#32) h.nrem, h.err, allTaken ▸ h.run⟩⟩

theorem InBlock.busy {ph : Phase} {rounds words : Nat} (h : InBlock s M ph rounds words u) (inBlock : ph.inBlock) :
    u.busy = true := by
  rcases inBlock with rfl | rfl | rfl <;> simp [State.busy, h.phase]

end

/-! ### The whole block -/

section
variable {s : State} {M : Words16} (phase : s.STATE = .awaitingBlock) (more : s.NREM ≠ 0#32)
  (supplied : SuppliesBlock s.script M)
include supplied

/-- A schedule step of the block: its Word comes from IN below round 16, and from the window after. -/
theorem after_schedule {t : Nat} (ht : t < 64) (reached : After s (1 + 2 * t) (InBlock s M .expandingSchedule t t)) :
    After s (1 + 2 * t + 1) (InBlock s M .compressing t (t + 1)) := by
  refine reached.next supplied (by omega) inBlock_ofRegistersAndRun fun u h here => ⟨h.busy (.inl rfl), ?_⟩
  rcases Nat.lt_or_ge t 16 with load | expand
  · obtain ⟨valid, word⟩ := word_of_supplied supplied load here
    exact inBlock_schedLoad h load valid word
  · exact inBlock_schedExpand h expand

include phase more

/-- After BEGIN_BLOCK and `t` rounds, by induction on the rounds. -/
theorem after_rounds {t : Nat} (ht : t ≤ 63) : After s (1 + 2 * t) (InBlock s M .expandingSchedule t t) := by
  induction t with
  | zero =>
    have begun : After s 0 (· = s) := ⟨s, rfl, rfl, rfl⟩
    refine begun.next supplied (by decide) inBlock_ofRegistersAndRun ?_
    rintro _ rfl -
    exact ⟨by simp [State.busy, phase], inBlock_beginBlock M phase more⟩
  | succ t ih =>
    have scheduled := after_schedule supplied (by omega) (ih (by omega))
    exact scheduled.next supplied (by omega) inBlock_ofRegistersAndRun fun u h _ =>
      ⟨h.busy (.inr (.inl rfl)), inBlock_round h (by omega)⟩

/-- The block is compressed into the Digest State in 130 steps, and exactly its Words are taken (R115). -/
theorem after_block : After s 130 (BlockFolded s M) := by
  have scheduled : After s 128 (InBlock s M .compressing 63 64) :=
    after_schedule supplied (by decide) (after_rounds phase more supplied le_rfl)
  have rounds : After s 129 (InBlock s M .folding 64 64) :=
    scheduled.next supplied (by decide) inBlock_ofRegistersAndRun fun u h _ =>
      ⟨h.busy (.inr (.inl rfl)), inBlock_lastRound h⟩
  exact rounds.next supplied (by decide) blockFolded_ofRegistersAndRun fun u h _ =>
    ⟨h.busy (.inr (.inr rfl)), blockFolded_fold h⟩

end

/-- Settles O37, by the steps of the block. -/
theorem suppliedBlockIsCompressed : Obligations.SuppliedBlockIsCompressed := by
  intro s M phase more supplied
  obtain ⟨t, ran, script, folded⟩ := after_block phase more supplied
  exact ⟨t, ran, folded.phase, folded.nrem, folded.digestState, folded.err, script⟩

end Sys2Proof.Machine
end

