-- ==== Sys2Proof/Proofs/Accumulator.lean ====
section
/-!
PROOFS. The digest accumulator: the effect of BEGIN_BLOCK, FOLD and FINISH on the registers (R112 to R114), the steps that
select them, and the chain over the blocks (R116, R119).
-/
namespace Sys2Proof.Machine

/-! ### The step, by its registers and its transfers -/

/-- The step of a busy, undisturbed CORE leaves the registers its internal operation leaves, and records its transfers. -/
theorem stepMakes_of_internalResult {E : State → State → Prop} {s v : State} (busy : s.busy = true)
    (free : s.undisturbed) (run : InternalResult s v)
    (effect : ∀ t, SameRegisters v t → t.trace = s.trace ++ (transfers s).events → E s t) : StepMakes E s := by
  obtain ⟨es, -, stepped⟩ := step_of_exec_internalOp busy free (exec_internalOp_of_result run)
  obtain ⟨script, tick⟩ := internalResult_environment run
  have trace := stepRecordsItsTransfers s _ stepped
  exact ⟨_, stepped, effect _ ⟨rfl, rfl, rfl, rfl, rfl, rfl, rfl⟩ trace, congrArg List.tail script, congrArg (· + 1) tick⟩

theorem busy_of_awaitingBlock {s : State} (phase : s.STATE = .awaitingBlock) : s.busy = true := by
  simp [State.busy, phase]

theorem allZero_of_cleared {t : State} (cleared : t.Cleared) : AllZero t := by
  obtain ⟨hH, hV, hWIN, hT, hNREM⟩ := cleared
  exact ⟨by simp [hH], by simp [hV], by simp [hWIN], hT, hNREM⟩

/-! ### BEGIN_BLOCK -/

/-- The registers that BEGIN_BLOCK writes have its effect (R112). -/
theorem beginBlockEffect_of_sameRegisters {s t : State}
    (written : SameRegisters
      { s with V := s.H, WIN := Vector.replicate 16 0#32, T := 0#6, STATE := .expandingSchedule } t) :
    BeginBlockEffect s t := by
  obtain ⟨hH, hV, hWIN, hT, hNREM, hSTATE, hERR⟩ := written
  exact ⟨fun i => by rw [hV], by simp [hWIN], hT, hSTATE, hH, hNREM, hERR⟩

/-- Settles O23: with blocks left, the step in AwaitingBlock is BEGIN_BLOCK. -/
theorem beginBlockCopiesTheDigestState : Obligations.BeginBlockCopiesTheDigestState := by
  constructor
  · intro lo iv ie r s
    exact ⟨_, rfl, beginBlockEffect_of_sameRegisters (sameRegisters_refl _), rfl, rfl, (List.append_nil _).symm⟩
  · intro s phase more free
    exact stepMakes_of_internalResult (busy_of_awaitingBlock phase) free (.beginBlock phase more)
      fun t written _ => beginBlockEffect_of_sameRegisters written

/-! ### FOLD -/

/-- The registers that FOLD writes have its effect, Word by Word (R111, R113). -/
theorem foldEffect_of_sameRegisters {s t : State}
    (written : SameRegisters { s with H := add8 s.H s.V, NREM := s.NREM - 1#32, STATE := .awaitingBlock } t) :
    FoldEffect s t := by
  obtain ⟨hH, hV, hWIN, hT, hNREM, hSTATE, hERR⟩ := written
  exact ⟨fun i => by rw [hH]; exact add8_get s.H s.V i, hNREM, hSTATE, hV, hWIN, hT, hERR⟩

/-- Settles O24: the step in Folding is FOLD, and there a block is counted (R36 item 3). -/
theorem foldAddsTheWorkingState : Obligations.FoldAddsTheWorkingState := by
  refine ⟨?exec, ?step, ?count⟩
  case exec =>
    intro nz lo iv ie r s
    exact ⟨_, rfl, foldEffect_of_sameRegisters (sameRegisters_refl _), rfl, rfl, (List.append_nil _).symm⟩
  case step =>
    intro s phase free
    have busy : s.busy = true := by simp [State.busy, phase]
    exact stepMakes_of_internalResult busy free (.fold phase) fun t written _ => foldEffect_of_sameRegisters written
  case count =>
    intro s t inv phase effect
    have counted : s.NREM ≠ 0#32 := inv.in_block_nrem (.inr (.inr phase))
    obtain ⟨-, down, -⟩ := effect
    rw [down]
    bv_omega

/-! ### FINISH -/

/-- The registers that FINISH writes have its effect (R114). -/
theorem finishEffect_of_sameRegisters {s t : State}
    (written : SameRegisters { (s.record (.digest (pack8 s.H))).zeroData with STATE := .done } t) :
    FinishEffect s t := by
  obtain ⟨hH, hV, hWIN, hT, hNREM, hSTATE, hERR⟩ := written
  exact ⟨allZero_of_cleared ⟨hH, hV, hWIN, hT, hNREM⟩, hSTATE, hERR⟩

/-- In a step that selects FINISH, OUT transfers the packed Digest State and IN nothing (R44, R70). -/
theorem transfers_finish {s : State} (phase : s.STATE = .awaitingBlock) (noMore : s.NREM = 0#32)
    (ready : s.pins.outReady = true) (free : s.undisturbed) :
    (transfers s).inp = none ∧ (transfers s).out = some (pack8 s.H) := by
  have valid : s.outValid = true := (outValid_iff s).mpr ⟨phase, noMore⟩
  have notReady : s.inReady = false := inReady_of_phase (by simp [phase])
  rw [transfers_of_undisturbed (busy_of_awaitingBlock phase) free]
  exact ⟨by simp [State.wordTaken, notReady], by simp [digestGiven_eq, valid, ready]⟩

/-- Settles O25: with no block left and the receiver ready, the step in AwaitingBlock is FINISH. -/
theorem finishHandsOverTheDigest : Obligations.FinishHandsOverTheDigest := by
  constructor
  · intro lo iv ie s
    exact ⟨_, pack8 s.H, rfl, finishEffect_of_sameRegisters (sameRegisters_refl _), ⟨rfl, rfl, rfl⟩, pack8_word s.H⟩
  · intro s phase noMore ready free
    obtain ⟨noWord, digest⟩ := transfers_finish phase noMore ready free
    refine ⟨noWord, digest, stepMakes_of_internalResult (busy_of_awaitingBlock phase) free
      (.finish phase noMore ready) fun t written trace => ⟨finishEffect_of_sameRegisters written, ?_⟩⟩
    simpa [Transfers.events, noWord, digest] using trace

/-! ### The chain -/

/-- Settles O52: the chain is a left fold, and a left fold splits anywhere. -/
theorem chainSplitsAnywhere : Obligations.ChainSplitsAnywhere := by
  refine ⟨fun seed xs ys => ?_, chain_eq_foldl⟩
  simp only [chain_eq_foldl, List.foldl_append]

end Sys2Proof.Machine
end

