-- ==== Sys2Proof/Proofs/AcrossBlocks.lean ====
section
/-!
PROOFS. Between two blocks only `H` and `NREM` matter for what comes (R120): `V`, `WIN` and `T` are overwritten or cleared
before anything looks at them, so that two machines that differ in them alone show the same for ever.
-/
namespace Sys2Proof.Machine

/-! ### States that agree on what comes -/

/-- The state with other values in the registers that serve within a block. -/
def State.withBlockRegisters (v : Words8) (w : Words16) (i : BitVec 6) (s : State) : State :=
  { s with V := v, WIN := w, T := i }

/-- Two states that are the same, or that wait for a block and differ in the registers within a block alone. -/
inductive SameBetweenBlocks (s : State) : State → Prop
  | same : SameBetweenBlocks s s
  | awaiting (phase : s.STATE = .awaitingBlock) (v : Words8) (w : Words16) (i : BitVec 6) :
      SameBetweenBlocks s (s.withBlockRegisters v w i)

theorem SameBetweenBlocks.advance {s t : State} (h : SameBetweenBlocks s t) :
    SameBetweenBlocks s.advance t.advance := by
  cases h with
  | same => exact .same
  | awaiting phase v w i => exact .awaiting (s := s.advance) phase v w i

/-- In AwaitingBlock `in_ready` is 0 whatever `T` is, and no output shows `V` or `WIN`. -/
theorem SameBetweenBlocks.outputs_eq {s t : State} (h : SameBetweenBlocks s t) : outputs s = outputs t := by
  cases h with
  | same => rfl
  | awaiting phase v w i =>
    have notReady : s.inReady = false := inReady_of_phase (by simp [phase])
    have notReady' : (s.withBlockRegisters v w i).inReady = false :=
      inReady_of_phase (s := s.withBlockRegisters v w i) (by simp [State.withBlockRegisters, phase])
    simp only [outputs, notReady, notReady']
    rfl

theorem SameBetweenBlocks.trace_eq {s t : State} (h : SameBetweenBlocks s t) : s.trace = t.trace := by
  cases h <;> rfl

/-! ### A step keeps the agreement -/

section
variable {s : State} (phase : s.STATE = .awaitingBlock) (v : Words8) (w : Words16) (i : BitVec 6)
include phase

/-- WAIT_OUT keeps the difference, BEGIN_BLOCK overwrites it and FINISH clears it. -/
theorem internalResult_withBlockRegisters {t : State} (run : InternalResult s t) :
    ∃ u, InternalResult (s.withBlockRegisters v w i) u ∧ SameBetweenBlocks t u := by
  have other {ph : Phase} (inOther : s.STATE = ph) (differs : ph ≠ .awaitingBlock) : False :=
    differs (inOther.symm.trans phase)
  cases run with
  | hold waits =>
    have stillWaits : (s.withBlockRegisters v w i).suspended = true := by
      rcases waits with rest | suspended
      · simp [busy_of_awaitingBlock phase] at rest
      · rcases (suspended_iff s).mp suspended with ⟨ready, -⟩ | offered
        · exact (other ((inReady_iff s).mp ready).1 nofun).elim
        · exact (suspended_iff _).mpr (.inr offered)
    exact ⟨_, .hold (.inr stillWaits), .awaiting phase v w i⟩
  | beginBlock _ more => exact ⟨_, .beginBlock (s := s.withBlockRegisters v w i) phase more, .same⟩
  | finish _ noMore ready => exact ⟨_, .finish (s := s.withBlockRegisters v w i) phase noMore ready, .same⟩
  | schedLoad expanding | underrun expanding | schedExpand expanding => exact (other expanding nofun).elim
  | round compressing | lastRound compressing => exact (other compressing nofun).elim
  | fold folding => exact (other folding nofun).elim

theorem stepResult_withBlockRegisters {t : State} (result : StepResult s t) :
    ∃ u, StepResult (s.withBlockRegisters v w i) u ∧ SameBetweenBlocks t u := by
  have busy := busy_of_awaitingBlock phase
  cases result with
  | reset rst => exact ⟨_, .reset (s := s.withBlockRegisters v w i) rst, .same⟩
  | cancelBusy rst offered =>
    exact ⟨_, .cancelBusy (s := s.withBlockRegisters v w i) rst offered busy, .same⟩
  | cancelRest _ _ rest => simp [busy] at rest
  | start _ accepted => simp [startAccepted_of_busy busy] at accepted
  | internal rst noCancel noStart run =>
    have nop : (s.withBlockRegisters v w i).afterNop = s.afterNop.withBlockRegisters v w i := by
      rw [State.afterNop, State.afterNop, apply_ite (State.withBlockRegisters v w i)]; rfl
    obtain ⟨u, run', agree⟩ := internalResult_withBlockRegisters (s := s.afterNop) (by simp [phase]) v w i run
    exact ⟨u, .internal (s := s.withBlockRegisters v w i) rst noCancel noStart (nop ▸ run'), agree⟩

end

theorem step_sameBetweenBlocks {s t : State} (h : SameBetweenBlocks s t) :
    ∃ s' t', step s = .next s' ∧ step t = .next t' ∧ SameBetweenBlocks s' t' := by
  obtain ⟨u, stepped, result⟩ := step_result s
  cases h with
  | same => exact ⟨_, _, stepped, stepped, .same⟩
  | awaiting phase v w i =>
    obtain ⟨u', result', agree⟩ := stepResult_withBlockRegisters phase v w i result
    exact ⟨_, _, stepped, step_of_stepResult result', agree.advance⟩

theorem steps_sameBetweenBlocks (n : Nat) {s t : State} (h : SameBetweenBlocks s t) :
    ∃ s' t', steps n s = .next s' ∧ steps n t = .next t' ∧ SameBetweenBlocks s' t' := by
  induction n generalizing s t with
  | zero => exact ⟨s, t, rfl, rfl, h⟩
  | succ n ih =>
    obtain ⟨s₁, t₁, first, first', agree⟩ := step_sameBetweenBlocks h
    rw [steps, steps, first, first', andThen_next, andThen_next]
    exact ih agree

/-- Settles O40: the two machines agree at the start, and with every step. -/
theorem onlyDigestStateCrossesBlocks : Obligations.OnlyDigestStateCrossesBlocks := by
  intro n s v w i phase
  obtain ⟨t, u, ran, ran', agree⟩ := steps_sameBetweenBlocks n (.awaiting phase v w i)
  exact ⟨t, u, ran, ran', agree.outputs_eq, agree.trace_eq⟩

end Sys2Proof.Machine
end

