-- ==== Sys2Proof/Proofs/WholeMessage.lean ====
section
/-!
PROOFS. A whole computation (R117, R127, R128, R133): the step that accepts the START, 130 steps for each block supplied
without a wait, and the step that hands over the digest.
-/
namespace Sys2Proof.Machine

/-! ### Runs one after the other -/

theorem steps_add (m n : Nat) (s : State) : steps (m + n) s = andThen (steps m s) (steps n) := by
  induction m generalizing s with
  | zero => rw [Nat.zero_add, steps, andThen_next]
  | succ m ih =>
    obtain ⟨u, first, -⟩ := step_result s
    rw [Nat.add_right_comm, steps, steps, first, andThen_next, andThen_next, ih]

theorem After.step {s t : State} {P : State → Prop} (stepped : step s = .next t) (script : t.script = s.script.tail)
    (holds : P t) : After s 1 P :=
  ⟨t, by rw [steps, stepped, andThen_next, steps], script.trans List.drop_one.symm, holds⟩

/-- A run goes on from the state a first run has reached. -/
theorem After.trans {m n : Nat} {s : State} {P Q : State → Prop} (reached : After s m P)
    (goesOn : ∀ u, P u → u.script = s.script.drop m → After u n Q) : After s (m + n) Q := by
  obtain ⟨u, ran, script, holds⟩ := reached
  obtain ⟨t, ranOn, scriptOn, made⟩ := goesOn u holds script
  exact ⟨t, by rw [steps_add, ran, andThen_next, ranOn], by rw [scriptOn, script, List.drop_drop], made⟩

/-! ### The blocks -/

/-- What holds when the blocks `Ms`, all that were counted in `s`, are folded (R116, R117). -/
structure BlocksFolded (s : State) (Ms : List Words16) (u : State) : Prop where
  phase : u.STATE = .awaitingBlock
  digestState : u.H = chain s.H Ms
  nrem : u.NREM = 0#32
  err : u.ERR = s.ERR
  run : currentRun u.trace = (currentRun s.trace).map (Run.taking (Ms.flatMap (fun M => M.toList)))

theorem Run.taking_taking (r : Option Run) (ws xs : List Word) :
    (r.map (Run.taking ws)).map (Run.taking xs) = r.map (Run.taking (ws ++ xs)) := by
  cases r <;> simp [Run.taking]

/-- One block and then the others. -/
theorem BlocksFolded.cons {s u t : State} {M : Words16} {Ms : List Words16} (first : BlockFolded s M u)
    (others : BlocksFolded u Ms t) : BlocksFolded s (M :: Ms) t where
  phase := others.phase
  digestState := by rw [others.digestState, first.digestState, chain]
  nrem := others.nrem
  err := others.err.trans first.err
  run := by rw [others.run, first.run, Run.taking_taking, List.flatMap_cons]

/-- The blocks are folded into the Digest State in 130 steps each, and exactly their Words are taken (R117, R133). -/
theorem after_blocks {s : State} {Ms : List Words16} (phase : s.STATE = .awaitingBlock)
    (count : s.NREM.toNat = Ms.length) (supplied : SuppliesBlocks s.script Ms) :
    After s (130 * Ms.length) (BlocksFolded s Ms) := by
  induction Ms generalizing s with
  | nil =>
    exact ⟨s, rfl, rfl, phase, rfl, BitVec.eq_of_toNat_eq count, rfl, (Run.taking_nil _).symm⟩
  | cons M Ms ih =>
    obtain ⟨block, others⟩ := supplied
    rw [List.length_cons] at count
    have more : s.NREM ≠ 0#32 := by bv_omega
    have length : 130 * (M :: Ms).length = 130 + 130 * Ms.length := by rw [List.length_cons]; omega
    rw [length]
    refine (after_block phase more block).trans fun u folded script => ?_
    have countDown : u.NREM.toNat = Ms.length := by rw [folded.nrem]; bv_omega
    obtain ⟨t, ran, rest, done⟩ := ih folded.phase countDown (script ▸ others)
    exact ⟨t, ran, rest, .cons folded done⟩

/-! ### The first step and the last -/

/-- What holds when the CORE has just accepted a START (R127, R128). -/
structure Started (seed : Words8) (n : BlockCount) (u : State) : Prop where
  phase : u.STATE = .awaitingBlock
  digestState : u.H = seed
  nrem : u.NREM = n
  err : u.ERR = .none
  run : currentRun u.trace = some ⟨seed, n, [], []⟩

/-- A START or START_SEEDED at rest is accepted in one step. -/
theorem after_start {s : State} (rest : s.busy = false) (rst : s.pins.rst = false) (valid : s.pins.cmdValid = true)
    (op : cmdOp s.pins.cmdWord = opStart ∨ cmdOp s.pins.cmdWord = opStartSeeded) :
    After s 1 (Started (commandSeed s.pins.cmdWord) (cmdNblocks s.pins.cmdWord)) := by
  have accepted : s.startAccepted = true := (startAccepted_iff s).mpr ⟨valid, op, rest⟩
  exact .step (step_of_stepResult (.start rst accepted)) rfl ⟨rfl, rfl, rfl, rfl, currentRun_start op s.trace⟩

/-- What holds when the digest of the computation `r` has been handed over (R114, R117). -/
structure Finished (r : Run) (e : ErrCode) (d : Digest) (t : State) : Prop where
  phase : t.STATE = .done
  err : t.ERR = e
  run : currentRun t.trace = some { r with digests := r.digests ++ [d] }

theorem finished_ofRegistersAndRun {r : Run} {e : ErrCode} {d : Digest} : OfRegistersAndRun (Finished r e d) := by
  rintro v tr same ⟨phase, err, run⟩
  exact ⟨phase, err, same.trans run⟩

/-- With no block left and the receiver ready the digest is handed over in one step. -/
theorem after_finish {s : State} {r : Run} (phase : s.STATE = .awaitingBlock) (noMore : s.NREM = 0#32)
    (free : s.undisturbed) (ready : s.pins.outReady = true) (run : currentRun s.trace = some r) :
    After s 1 (Finished r s.ERR (pack8 s.H)) := by
  obtain ⟨t, stepped, script, made⟩ := step_of_internalResult finished_ofRegistersAndRun
    (busy_of_awaitingBlock phase) free (.finish phase noMore ready) ⟨rfl, rfl, currentRun_digest run _⟩
  exact .step stepped script made

/-! ### The whole computation -/

/-- From AwaitingBlock: the blocks that are counted, and the digest. -/
theorem after_message {s : State} {r : Run} {q : Config.Pins} {Ms : List Words16} (phase : s.STATE = .awaitingBlock)
    (count : s.NREM.toNat = Ms.length) (run : currentRun s.trace = some r) (supplied : SuppliesBlocks s.script Ms)
    (last : s.script[130 * Ms.length]? = some q) (free : PinsUndisturbed q) (ready : q.outReady = true) :
    After s (130 * Ms.length + 1)
      (Finished (r.taking (Ms.flatMap (fun M => M.toList))) s.ERR (pack8 (chain s.H Ms))) := by
  refine (after_blocks phase count supplied).trans fun u folded script => ?_
  obtain rfl : u.pins = q := pins_of_script_drop script last
  rw [← folded.err, ← folded.digestState]
  exact after_finish folded.phase folded.nrem (undisturbed_of_pins free) ready (folded.run.trans (by rw [run]; rfl))

/-- The seed of the accepted command (R127, R128). -/
theorem eq_commandSeed {w : CmdWord} {seed : Words8}
    (command : cmdOp w = opStart ∧ seed = IV ∨ cmdOp w = opStartSeeded ∧ seed = words8 (cmdSeed w)) :
    (cmdOp w = opStart ∨ cmdOp w = opStartSeeded) ∧ seed = commandSeed w := by
  rcases command with ⟨op, rfl⟩ | ⟨op, rfl⟩
  · exact ⟨.inl op, (if_pos op).symm⟩
  · exact ⟨.inr op, (if_neg (by rw [op]; decide)).symm⟩

/-- Settles O38: the step that accepts the command, and the message. -/
theorem wholeMessageIsHashed : Obligations.WholeMessageIsHashed := by
  intro s p q env Ms seed rest script rst valid command count supplied last free ready
  obtain rfl : s.pins = p := pins_cons s p env script
  obtain ⟨op, rfl⟩ := eq_commandSeed command
  obtain ⟨u, first, onward, begun⟩ := after_start rest rst valid op
  obtain rfl : u.script = env := by rw [onward, script]; rfl
  obtain ⟨t, ran, -, finished⟩ :=
    after_message begun.phase (begun.nrem ▸ count) begun.run supplied last free ready
  rw [begun.err, begun.digestState] at finished
  have length : 130 * Ms.length + 2 = 1 + (130 * Ms.length + 1) := by omega
  refine ⟨t, _, ?_, finished.phase, finished.err, finished.run, rfl, rfl, rfl, rfl⟩
  rw [length, steps_add, first, andThen_next, ran]

end Sys2Proof.Machine
end

