-- ==== Sys2Proof/Proofs/StepFunction.lean ====
section
/-!
PROOFS. The controller's step (R126, R140): it is total, its outputs and its next state are those of the step function
that R140 writes as one text. Each case of `StepResult` is one branch of that text.
-/
namespace Sys2Proof.Machine

/-- Settles O10: each case of a step answers a next state. -/
theorem stepIsTotal : Obligations.StepIsTotal := by
  intro s
  obtain ⟨v, stepped, -⟩ := step_result s
  exact ⟨v.advance, stepped⟩

/-! ### The outputs -/

/-- Which commands are accepted (R45, R131). -/
theorem cmdReady_iff (s : State) (op : BitVec 2) : s.cmdReady op = true ↔
    op = opNop ∨ op = opCancel ∨ ((op = opStart ∨ op = opStartSeeded) ∧ s.busy = false) := by
  simp [State.cmdReady, or_assoc]

/-! ### The internal operation -/

/-- The case on STATE of R140 makes the internal operation. `ERR`, which FINISH restates there, is `none` in
AwaitingBlock (log 25). -/
theorem internalResult_eq_rule140Internal {s v : State} (noError : s.STATE = .awaitingBlock → s.ERR = .none)
    (run : InternalResult s v) : v = rule140Internal s s.pins := by
  cases run with
  | hold waits =>
    rcases waits with rest | suspended
    · rcases (busy_eq_false_iff s).mp rest with phase | phase | phase <;> simp only [rule140Internal, phase]
    · rcases (suspended_iff s).mp suspended with ⟨ready, invalid, notEnded⟩ | ⟨valid, notReady⟩
      · obtain ⟨phase, load⟩ := (inReady_iff s).mp ready
        simp [rule140Internal, phase, load, invalid, notEnded]
      · obtain ⟨phase, noMore⟩ := (outValid_iff s).mp valid
        simp [rule140Internal, phase, noMore, notReady]
  | beginBlock phase more => simp [rule140Internal, phase, more]
  | finish phase noMore ready => simp [rule140Internal, phase, noMore, ready, State.zeroData, noError phase]
  | schedLoad phase load valid => simp [rule140Internal, phase, load, valid, State.inTake]
  | underrun phase load invalid ended =>
    simp [rule140Internal, phase, load, invalid, ended, State.raiseCondition]
  | schedExpand phase expand => simp [rule140Internal, phase, Nat.not_lt.mpr expand, expandWord]
  | round phase more =>
    have notLast : s.T ≠ 63#6 := by bv_omega
    simp [rule140Internal, phase, notLast]
  | lastRound phase last => simp [rule140Internal, phase, last]
  | fold phase => simp [rule140Internal, phase]

/-! ### The step -/

/-- Beside the internal operation R140 records a NOP and no other command. -/
theorem rule140_of_internal {s : State} (rst : s.pins.rst = false) (noCancel : s.cancelOffered = false)
    (noStart : s.startAccepted = false) : rule140 s s.pins = rule140Internal s.afterNop s.pins := by
  have notCancel : ¬ (s.pins.cmdValid = true ∧ cmdOp s.pins.cmdWord = opCancel) := by
    rw [← cancelOffered_iff, noCancel]; exact Bool.false_ne_true
  have notStart (op : BitVec 2) (starts : op = opStart ∨ op = opStartSeeded) :
      ¬ (s.pins.cmdValid = true ∧ cmdOp s.pins.cmdWord = op ∧ ¬ s.busy = true) := by
    rintro ⟨valid, rfl, rest⟩
    have := (startAccepted_iff s).mpr ⟨valid, starts, Bool.eq_false_iff.mpr rest⟩
    simp [noStart] at this
  simp only [rule140, rst, Bool.false_eq_true, if_false, cmdReady_beside_internal noCancel noStart,
    if_neg notCancel, if_neg (notStart _ (.inl rfl)), if_neg (notStart _ (.inr rfl))]
  rfl

theorem stepResult_eq_rule140 {s v : State} (inv : s.Inv) (result : StepResult s v) : v = rule140 s s.pins := by
  cases result with
  | reset rst => rw [rule140, if_pos rst]
  | cancelBusy rst offered busy =>
    obtain ⟨valid, op⟩ := (cancelOffered_iff s).mp offered
    have taken : s.cmdReady opCancel = true := (cmdReady_iff s _).mpr (.inr (.inl rfl))
    simp [rule140, rst, valid, op, taken, busy, State.raiseCondition]
  | cancelRest rst offered rest =>
    obtain ⟨valid, op⟩ := (cancelOffered_iff s).mp offered
    have taken : s.cmdReady opCancel = true := (cmdReady_iff s _).mpr (.inr (.inl rfl))
    simp [rule140, rst, valid, op, taken, rest]
  | start rst accepted =>
    obtain ⟨valid, op, rest⟩ := (startAccepted_iff s).mp accepted
    have taken : s.cmdReady (cmdOp s.pins.cmdWord) = true := (cmdReady_iff s _).mpr (.inr (.inr ⟨op, rest⟩))
    rcases op with op | op
    · have notCancel : opStart ≠ opCancel := by decide
      rw [op] at taken
      simp [rule140, rst, valid, op, taken, rest, notCancel, commandSeed, State.beginRun]
    · have notCancel : opStartSeeded ≠ opCancel := by decide
      have notStart : opStartSeeded ≠ opStart := by decide
      rw [op] at taken
      simp [rule140, rst, valid, op, taken, rest, notCancel, notStart, commandSeed, State.beginRun]
  | internal rst noCancel noStart run =>
    have inv' : s.afterNop.Inv := inv_of_sameRegisters (sameRegisters_afterNop s) inv
    rw [rule140_of_internal rst noCancel noStart, ← afterNop_pins]
    exact internalResult_eq_rule140Internal (fun phase => inv'.err_none (phase ▸ nofun)) run

/-- Settles O12: the step by its cases, the outputs by the lemmas on the ready and valid signals. -/
theorem stepIsTheStepFunctionOfTheSpec : Obligations.StepIsTheStepFunctionOfTheSpec := by
  constructor
  · intro s inv
    obtain ⟨v, stepped, result⟩ := step_result s
    rw [stepped, stepResult_eq_rule140 inv result]
  · exact fun s => ⟨inReady_iff s, outValid_iff s, rfl, cmdReady_iff s _, rfl, rfl⟩

end Sys2Proof.Machine
end

