-- ==== Sys2Proof/Proofs/Progress.lean ====
section
/-!
PROOFS. The operations left until Done (R133, R141): every undisturbed step of a busy CORE makes one of them, fails for
want of input, or waits.
-/
namespace Sys2Proof.Machine

/-! ### The measure -/

theorem workLeft_of_sameRegisters {s t : State} (same : SameRegisters s t) : t.workLeft = s.workLeft := by
  obtain ⟨-, -, -, hT, hNREM, hSTATE, -⟩ := same
  rw [State.workLeft, State.workLeft, hSTATE, hNREM, hT]

theorem workLeft_pos {s : State} (busy : s.busy = true) : 0 < s.workLeft := by
  cases phase : s.STATE
  case idle | done | failed => simp [State.busy, phase] at busy
  case awaitingBlock | expandingSchedule | compressing | folding => simp [State.workLeft, phase]

/-- An operation of a busy CORE that is no wait and no failure leaves one less. A block that begins was counted, and
a block that is folded stops being counted (R36 item 3). -/
theorem internalResult_workLeft {s v : State} (inv : s.Inv) (busy : s.busy = true) (goesOn : s.suspended = false)
    (run : InternalResult s v) :
    (v.STATE = .failed ∧ v.ERR = .inputUnderrun) ∨ v.workLeft + 1 = s.workLeft := by
  cases run with
  | hold waits => simp [busy, goesOn] at waits
  | underrun => exact .inl ⟨rfl, rfl⟩
  | beginBlock phase more =>
    have counted : 0 < s.NREM.toNat := by bv_omega
    refine .inr ?_
    simp only [State.workLeft, phase, BitVec.toNat_ofNat]
    omega
  | finish phase noMore => exact .inr (by simp [State.workLeft, phase, noMore])
  | schedLoad phase => exact .inr (by simp only [State.workLeft, phase, record_NREM, record_T]; omega)
  | schedExpand phase => exact .inr (by simp only [State.workLeft, phase]; omega)
  | round phase more =>
    have counted : (s.T + 1#6).toNat = s.T.toNat + 1 := by bv_omega
    refine .inr ?_
    simp only [State.workLeft, phase, counted]
    omega
  | lastRound phase last => exact .inr (by simp [State.workLeft, phase, last])
  | fold phase =>
    have counted : s.NREM ≠ 0#32 := inv.in_block_nrem (.inr (.inr phase))
    have countDown : (s.NREM - 1#32).toNat = s.NREM.toNat - 1 := by bv_omega
    exact .inr (by simp only [State.workLeft, phase, countDown])

/-- Settles O36: the operation of the key leaves one less, a hold the same, and a START the work of its count. -/
theorem everyUndisturbedStepMakesProgress : Obligations.EveryUndisturbedStepMakesProgress := by
  refine ⟨?progress, ?wait, ?start, fun s => workLeft_pos⟩
  case progress =>
    intro s t inv busy free goesOn hstep
    obtain ⟨v, ran, run⟩ := exec_internalOp s
    obtain ⟨es, -, stepped⟩ := step_of_exec_internalOp busy free ran
    obtain rfl := Host.Outcome.next.inj (stepped.symm.trans hstep)
    exact internalResult_workLeft (v := v) inv busy goesOn run
  case wait =>
    rintro s t busy ⟨rst, noCancel⟩ waits hstep
    have held := step_hold rst noCancel (startAccepted_of_busy busy) (.inr waits)
    obtain rfl := Host.Outcome.next.inj (held.symm.trans hstep)
    exact workLeft_of_sameRegisters (sameRegisters_afterNop_advance s)
  case start =>
    intro s t rst accepted hstep
    obtain rfl := Host.Outcome.next.inj ((step_of_stepResult (.start rst accepted)).symm.trans hstep)
    rfl

end Sys2Proof.Machine
end

