-- ==== Sys2Proof/Proofs/Commands.lean ====
section
/-!
PROOFS. The caller's commands NOP, START, START_SEEDED and CANCEL (R127 to R131): which are accepted, and what the
operation and the step that performs it do; and that Failed outlasts every step without a START or RESET (R138).
-/
namespace Sys2Proof.Machine

/-! ### Acceptance -/

/-- A START is accepted exactly when the CORE is not busy. -/
@[simp] theorem cmdReady_opStart (s : State) : s.cmdReady opStart = !s.busy := Bool.true_and _

@[simp] theorem cmdReady_opStartSeeded (s : State) : s.cmdReady opStartSeeded = !s.busy := Bool.true_and _

/-- Settles O13: NOP and CANCEL are accepted by their opcode alone, the other two when the CORE is not busy. -/
theorem commandAcceptanceTable : Obligations.CommandAcceptanceTable := by
  refine fun s => ⟨rfl, rfl, fun rest => ?rest, fun busy => ?busy⟩
  case rest =>
    have notBusy : s.busy = false := (busy_eq_false_iff s).mpr rest
    simp [notBusy]
  case busy =>
    have isBusy : s.busy = true := by rcases busy with phase | phase | phase | phase <;> simp [State.busy, phase]
    simp [isBusy]

/-! ### START and START_SEEDED -/

theorem execStart_of_rest {s : State} (rest : s.busy = false) (n : BlockCount) (seed : BitVec 256) :
    execStart n seed s = .next ((s.record (.command (cmdWordOf opStart n seed))).beginRun IV n) :=
  if_neg (Bool.eq_false_iff.mp rest)

theorem execStart_of_busy {s : State} (busy : s.busy = true) (n : BlockCount) (seed : BitVec 256) :
    execStart n seed s = .next s := if_pos busy

theorem execStartSeeded_of_rest {s : State} (rest : s.busy = false) (n : BlockCount) (seed : BitVec 256) :
    execStartSeeded n seed s =
      .next ((s.record (.command (cmdWordOf opStartSeeded n seed))).beginRun (words8 seed) n) :=
  if_neg (Bool.eq_false_iff.mp rest)

theorem execStartSeeded_of_busy {s : State} (busy : s.busy = true) (n : BlockCount) (seed : BitVec 256) :
    execStartSeeded n seed s = .next s := if_pos busy

/-- A START writes every register, so that what it leaves does not hang on the state before. -/
theorem sameRegisters_beginRun (h : Words8) (n : BlockCount) (s t : State) :
    SameRegisters (s.beginRun h n) (t.beginRun h n) := ⟨rfl, rfl, rfl, rfl, rfl, rfl, rfl⟩

/-- The registers that a START with the seed `h` writes have its effect (R127, R128). -/
theorem startEffect_of_sameRegisters {h : Words8} {seed : Fin 8 → Word} {n : BlockCount} {s t : State}
    (words : ∀ i : Fin 8, h[i] = seed i) (written : SameRegisters (s.beginRun h n) t) : StartEffect seed n t := by
  obtain ⟨hH, hV, hWIN, hT, hNREM, hSTATE, hERR⟩ := written
  exact ⟨fun i => by rw [hH]; exact words i, by simp [hV], by simp [hWIN], hT, hNREM, hERR, hSTATE⟩

/-- The step that accepts a START or START_SEEDED has its effect, with the seed of the command. -/
theorem stepMakes_start {s : State} {seed : Fin 8 → Word} (rst : s.pins.rst = false)
    (valid : s.pins.cmdValid = true) (op : cmdOp s.pins.cmdWord = opStart ∨ cmdOp s.pins.cmdWord = opStartSeeded)
    (rest : s.busy = false) (words : ∀ i : Fin 8, (commandSeed s.pins.cmdWord)[i] = seed i) :
    StepMakes (fun _ t => StartEffect seed (cmdNblocks s.pins.cmdWord) t) s :=
  ⟨_, step_of_stepResult (.start rst ((startAccepted_iff s).mpr ⟨valid, op, rest⟩)),
    startEffect_of_sameRegisters words (sameRegisters_advance _), rfl, rfl⟩

/-- Settles O19: when busy START leaves the state, else it begins a computation with the default seed. -/
theorem startSeedsWithTheDefault : Obligations.StartSeedsWithTheDefault := by
  refine ⟨?exec, ?step, fun n seed s busy => execStart_of_busy busy n seed⟩
  case exec =>
    intro n seed s rest
    exact ⟨_, execStart_of_rest rest n seed, startEffect_of_sameRegisters (fun _ => rfl) (sameRegisters_refl _),
      rfl, rfl, rfl⟩
  case step =>
    intro s rst valid op rest
    exact stepMakes_start rst valid (.inl op) rest fun i => by rw [commandSeed, if_pos op]

/-- Settles O20: as START, with the Words cut from the seed field; those of the packed `IV` are `IV`. -/
theorem startSeededTakesTheSeed : Obligations.StartSeededTakesTheSeed := by
  refine ⟨?exec, ?step, ?seedIV, fun n seed s busy => execStartSeeded_of_busy busy n seed⟩
  case exec =>
    intro n seed s rest
    exact ⟨_, execStartSeeded_of_rest rest n seed,
      startEffect_of_sameRegisters (words8_get seed) (sameRegisters_refl _), rfl, rfl, rfl⟩
  case step =>
    intro s rst valid op rest
    obtain ⟨-, seed⟩ := eq_commandSeed (.inr ⟨op, rfl⟩)
    exact stepMakes_start rst valid (.inr op) rest fun i => by rw [← seed]; exact words8_get _ i
  case seedIV =>
    intro n seed s
    cases busy : s.busy
    case true =>
      exact ⟨s, s, execStartSeeded_of_busy busy n _, execStart_of_busy busy n seed, sameRegisters_refl s⟩
    case false =>
      refine ⟨_, _, execStartSeeded_of_rest busy n _, execStart_of_rest busy n seed, ?_⟩
      rw [words8_pack8]
      exact sameRegisters_beginRun IV n _ _

/-! ### CANCEL -/

theorem execCancel_of_busy {s : State} (busy : s.busy = true) (n : BlockCount) (seed : BitVec 256) :
    execCancel n seed s =
      .next ((s.record (.command (cmdWordOf opCancel n seed))).raiseCondition .cancelled) := if_pos busy

theorem execCancel_of_rest {s : State} (rest : s.busy = false) (n : BlockCount) (seed : BitVec 256) :
    execCancel n seed s = .next (s.record (.command (cmdWordOf opCancel n seed))) :=
  if_neg (Bool.eq_false_iff.mp rest)

theorem raiseEffect_raiseCondition (c : ErrCode) (s : State) : RaiseEffect c (s.raiseCondition c) :=
  ⟨allZero_raiseCondition c s, rfl, rfl⟩

/-- Settles O22: the operation and the step, each when busy and when not. -/
theorem cancelAbandonsTheComputation : Obligations.CancelAbandonsTheComputation := by
  refine ⟨?execBusy, ?execRest, ?step⟩
  case execBusy =>
    intro n seed s busy
    exact ⟨_, execCancel_of_busy busy n seed, raiseEffect_raiseCondition _ _, rfl, rfl, rfl⟩
  case execRest =>
    intro n seed s rest
    exact ⟨_, execCancel_of_rest rest n seed, sameRegisters_record _ s, rfl, rfl, rfl⟩
  case step =>
    intro s rst offered
    cases busy : s.busy
    case true =>
      refine ⟨_, step_of_stepResult (.cancelBusy rst offered busy), ⟨?_, rfl⟩, rfl, rfl⟩
      rw [if_pos busy]
      exact raiseEffect_raiseCondition .cancelled (s.record (.command s.pins.cmdWord))
    case false =>
      refine ⟨_, step_of_stepResult (.cancelRest rst offered busy), ⟨?_, rfl⟩, rfl, rfl⟩
      rw [if_neg (Bool.eq_false_iff.mp busy)]
      exact sameRegisters_record (.command s.pins.cmdWord) s

/-! ### NOP -/

/-- A NOP with the word `w` runs (R130). -/
theorem exec_decodeCmd_nop {w : CmdWord} (op : cmdOp w = opNop) (s : State) :
    exec (decodeCmd w) s = .next (s.record (.command w)) := by
  have word : cmdWordOf opNop (cmdNblocks w) (cmdSeed w) = w := op ▸ cmdWordOf_fields w
  rw [decodeCmd_nop op, exec, execNop, word]

/-- The step with a NOP leaves what the internal operation alone leaves, with the NOP's transfer before the operation's
own in the record (log 12). -/
theorem step_of_nop {s v : State} (rst : s.pins.rst = false) (valid : s.pins.cmdValid = true)
    (op : cmdOp s.pins.cmdWord = opNop) (ran : exec s.internalOp s = .next v) :
    ∃ es, v.trace = s.trace ++ es ∧
      step s = .next (v.withTrace (s.trace ++ .command s.pins.cmdWord :: es)).advance := by
  obtain ⟨es, trace, other⟩ := exec_blindToTrace ran
  have afterRecord := other (s.trace ++ [.command s.pins.cmdWord])
  rw [List.append_assoc, List.singleton_append] at afterRecord
  refine ⟨es, trace, ?_⟩
  rw [step_eq_exec_nop (selection_internal_of_nop rst valid op), exec_decodeCmd_nop op, andThen_next]
  exact congrArg (andThen · _) afterRecord

/-- The step without a command leaves what the internal operation leaves. -/
theorem step_of_noCommand {s v : State} (rst : s.pins.rst = false) (noCommand : s.pins.cmdValid = false)
    (ran : exec s.internalOp s = .next v) : step s = .next v.advance :=
  step_of_selection (selection_internal_of_noCommand rst (.inl noCommand)) ran

/-- Settles O18: both steps make the same internal operation, which looks at no CMD signal. -/
theorem nopChangesNothing : Obligations.NopChangesNothing := by
  constructor
  · intro n seed s
    exact ⟨_, rfl, sameRegisters_record _ s, rfl, rfl, rfl⟩
  · intro s rst valid op
    obtain ⟨v, ran, run⟩ := exec_internalOp s
    obtain ⟨es, trace, stepped⟩ := step_of_nop rst valid op ran
    have sameBeats : s.SeesSameBeats { s.pins with cmdValid := false } :=
      ⟨fun _ => ⟨rfl, fun _ => rfl, fun _ => rfl⟩, fun _ => rfl⟩
    have ran' := exec_internalOp_of_result (internalResult_withPins sameBeats run)
    exact ⟨_, _, es, stepped, step_of_noCommand rst rfl ran', ⟨rfl, rfl, rfl, rfl, rfl, rfl, rfl⟩, rfl, rfl, rfl,
      trace⟩

/-! ### Failed -/

/-- Settles O42: in Failed, as in every rest state, a step without RESET and START holds (R138). -/
theorem failedKeepsItsError : Obligations.FailedKeepsItsError := by
  intro s t phase rst noStart hstep
  have rest : s.busy = false := (busy_eq_false_iff s).mpr (.inr (.inr phase))
  obtain ⟨-, -, -, holds⟩ := holdsChangeNothing
  obtain ⟨u, stepped, ⟨⟨-, -, -, -, -, sameSTATE, sameERR⟩, -, -⟩, -, -⟩ := holds s rest rst noStart
  obtain rfl : u = t := Host.Outcome.next.inj (stepped.symm.trans hstep)
  exact ⟨sameSTATE.trans phase, sameERR⟩

end Sys2Proof.Machine
end

