-- ==== Sys2Proof/Proofs/Failure.lean ====
section
/-!
PROOFS. UNDERRUN (R151): where a Word is needed and the source has ended, the CORE enters Failed with InputUnderrun, takes
no Word and gives no digest (R154).
-/
namespace Sys2Proof.Machine

/-- The registers that the failure entry writes have its effect (R154). -/
theorem raiseEffect_of_sameRegisters {c : ErrCode} {s t : State} (written : SameRegisters (s.raiseCondition c) t) :
    RaiseEffect c t := by
  obtain ⟨hH, hV, hWIN, hT, hNREM, hSTATE, hERR⟩ := written
  exact ⟨allZero_of_cleared ⟨hH, hV, hWIN, hT, hNREM⟩, hERR, hSTATE⟩

/-- IN transfers only while a Word is offered (R42). -/
theorem transfers_inp_eq_none {s : State} (invalid : s.pins.inValid = false) : (transfers s).inp = none := by
  simp [transfers, invalid]

/-- Settles O29: the step is UNDERRUN, which enters Failed; no Word is offered, and OUT is idle outside AwaitingBlock. -/
theorem underrunRaisesInputUnderrun : Obligations.UnderrunRaisesInputUnderrun := by
  constructor
  · intro nz r s
    exact ⟨_, rfl, raiseEffect_raiseCondition .inputUnderrun s, rfl, rfl, (List.append_nil _).symm⟩
  · intro s phase load invalid ended free
    have made : StepMakes (fun _ t => RaiseEffect .inputUnderrun t) s :=
      stepMakes_of_internalResult (busy_of_expandingSchedule phase) free (.underrun phase load invalid ended)
        fun t written _ => raiseEffect_of_sameRegisters written
    have noDigest : (transfers s).out = none := transfers_out_eq_none (.inr (by simp [phase]))
    exact ⟨made, transfers_inp_eq_none invalid, noDigest⟩

end Sys2Proof.Machine
end

