-- ==== Sys2Proof/Proofs/Reset.lean ====
section
/-!
PROOFS. RESET (R170): the operation from every state, and the step in which it has priority over everything else.
-/
namespace Sys2Proof.Machine

/-- The registers that RESET writes have its effect (R170). -/
theorem resetEffect_of_sameRegisters {s t : State}
    (written : SameRegisters { s.zeroData with STATE := .idle, ERR := .none } t) : ResetEffect t := by
  obtain ⟨hH, hV, hWIN, hT, hNREM, hSTATE, hERR⟩ := written
  exact ⟨hSTATE, hERR, allZero_of_cleared ⟨hH, hV, hWIN, hT, hNREM⟩⟩

/-- Settles O17: with `rst = 1` the step is RESET, which comes first in the order of R70 and records no transfer. -/
theorem resetClearsEverything : Obligations.ResetClearsEverything := by
  constructor
  · intro s
    exact ⟨_, rfl, resetEffect_of_sameRegisters (sameRegisters_refl _), rfl, rfl, (List.append_nil _).symm⟩
  · intro s rst
    exact ⟨_, step_of_stepResult (.reset rst), ⟨resetEffect_of_sameRegisters (sameRegisters_advance _), rfl⟩, rfl, rfl⟩

end Sys2Proof.Machine
end
